-- ==== Sys2Proof/Word.lean ====
section
/-! DEFINITION. The word types of the core: the 8-bit byte of a register, a memory cell and an
operand (00_scope.md R5), the 9-bit program counter (10_state.md R25), and a register's index
(10_state.md R20). -/

namespace Sys2Proof

/-- A register, a memory cell, an operand byte, an address: 8 bits, unsigned (R5, R7). -/
abbrev Byte := BitVec 8

/-- The program counter: 9 bits, unsigned, so that it can hold 256 (R25). -/
abbrev PcWord := BitVec 9

/-- The index of one of the eight registers R0..R7 (R20). -/
abbrev RegIdx := Fin 8

/-- The operand byte that names a register: `00000rrr` (R78, last paragraph). -/
def regByte (r : RegIdx) : Byte := BitVec.ofNat 8 r.val

/-- `zext_9(v)`: a byte as a program-counter value, value unchanged (R8). -/
def zext9 (v : Byte) : PcWord := v.setWidth 9

end Sys2Proof
end

