-- ==== Sys2Proof/Config.lean ====
section
/-! DEFINITION. What is fixed for the machine: the parameters of 00_scope.md R5, the reset values of
10_state.md R36, and the one parameter the spec leaves open, `CONSOLE_ENCODING`. -/

namespace Sys2Proof

/-- `MEM_SIZE`, the number of memory cells (R5). -/
def Config.memSize : Nat := 256

/-- `SP_INDEX`: R7 is the stack pointer (R5, R21). -/
def Config.spIndex : RegIdx := 7

/-- `SP_RESET` (R5, R24, R36). -/
def Config.spReset : Byte := 0xF4

/-- The reset value of R0..R6 (R24, R36; the spec's decision D3). -/
def Config.regReset : Byte := 0x00

/-- `PC_RESET` (R5, R27, R36; the spec's decision D4). -/
def Config.pcReset : PcWord := 0

/-- The reset value of the flags register (R29, R36; the spec's decision D5). -/
def Config.flReset : Byte := 0x00

/-- What a memory cell holds at reset, and so what an address that the memory list does not name
reads as (R33, R36). -/
def Config.cellReset : Byte := 0x00

/-- `CONSOLE_ENCODING` (R5, R207; OPEN by the spec's decision D20): the bytes the host's output stream
carries for the character of a `(PRA, v)` record with v in 128..255. A free value: it has no body,
and nothing is proved of what it gives (log 5; safe). -/
opaque Config.consoleEncoding : Byte → List Byte

end Sys2Proof
end

