-- ==== Sys2Proof/Machine/State.lean ====
section
/-! DEFINITION. The architectural state, all of 10_state.md R36; the fatal conditions of 60_exceptions.md
R180, which the fault latch holds; and the reasons a step of the model can answer no next state. -/

namespace Sys2Proof.Machine

/-- A fatal condition with its information (R32, R180). `at` of R180 is `pcAt` here. -/
inductive Condition where
  /-- The byte fetched as an opcode is no functioning entry of the dispatch table; its address (R181). -/
  | unknownOpcode (byte : Byte) (addr : PcWord)
  /-- The program counter, an operand's address or CALL's return address is above 255 (R182). The
  offending address is an exact number: nothing is narrowed. -/
  | addressOutOfRange (addr : Nat) (pcAt : PcWord)
  /-- DIV or MOD with a zero divisor (R183). -/
  | divisionByZero (pcAt : PcWord)
  /-- A register-index operand byte above 7 (R184). -/
  | invalidRegister (byte : Byte) (pcAt : PcWord)
deriving DecidableEq, Repr

/-- Which console instruction wrote a record (R34). -/
inductive OutKind where
  | prn
  | pra
deriving DecidableEq, Repr

/-- A record `(kind, v)` of the console output log (R34). -/
structure OutRecord where
  kind : OutKind
  value : Byte
deriving DecidableEq, Repr

/-- Memory as a list of (address, byte) cells. In its canonical form (`Memory.wf`) the addresses rise
strictly, lie below 256, and no cell holds what an unlisted address reads as. -/
abbrev Memory := List Host.Cell

/-- All of the core's state (R36). -/
structure State where
  /-- R0..R7; R7 is the stack pointer (R20, R21). -/
  regs : Vector Byte 8
  /-- The program counter (R25). -/
  pc : PcWord
  /-- The flags register: E bit 0, G bit 1, L bit 2 (R28). -/
  fl : Byte
  /-- The halt flag (R30). -/
  halt : Bool
  /-- The fault latch (R32). -/
  fault : Option Condition
  /-- The 256 memory cells (R33). -/
  mem : Memory
  /-- The console output log, oldest record first (R34). -/
  out : List OutRecord
deriving DecidableEq, Repr

/-- Why `step` answers no next state. A fatal condition is not one of these: it is taken, as a next
state whose latch holds it (R187). -/
inductive Fault where
  /-- Raised by `step` alone, asked of a core whose halt flag is set: a stopped core takes no step
  (R101; "stuck" by U32). Safe: the model stops where the core stops (log 3). -/
  | coreHalted
  /-- Raised by `step` alone, asked of a core whose fault latch holds `c`: a stopped core takes no step
  (R101, R189). Safe, for the same reason (log 3). -/
  | coreFaulted (c : Condition)
deriving DecidableEq, Repr

/-- Why an instruction has no meaning in the model. -/
inductive Refusal where
  /-- The instruction is in the table and the model gives it no meaning. Raised by no arm of `exec`: all
  34 instructions have theirs. Safe. -/
  | notModelled (mnemonic : String)
deriving DecidableEq, Repr

/-- What a step or an instruction answers. -/
abbrev Result := Host.Outcome State Fault Refusal

/-- The machine right after reset (R36, R200): every field at the value the spec states. -/
def State.reset : State where
  regs := #v[Config.regReset, Config.regReset, Config.regReset, Config.regReset,
    Config.regReset, Config.regReset, Config.regReset, Config.spReset]
  pc := Config.pcReset
  fl := Config.flReset
  halt := false
  fault := none
  mem := []
  out := []

end Sys2Proof.Machine
end

