-- ==== Sys2Proof/Machine/Ops.lean ====
section
/-! DEFINITION. The named operations over memory, registers, the stack pointer, the program counter and
the console log, and the one way a fatal condition is taken. Each state update is a function of its
own, so that a law about it is stated once (Laws/State.lean). -/

namespace Sys2Proof.Machine

/-! ## Memory: `MemRead` and `MemWrite` (20_memory.md R52, R53) -/

/-- The value of cell `a`: of the first entry for it, or the reset contents (R33, R52). -/
def Memory.read : Memory → Nat → Byte
  | [], _ => Config.cellReset
  | (k, v) :: m, a => if k = a then v else Memory.read m a

/-- Put a cell before the first entry of a higher address. -/
def Memory.insert : Memory → Nat → Byte → Memory
  | [], a, v => [(a, v)]
  | (k, w) :: m, a, v => if a < k then (a, v) :: (k, w) :: m else (k, w) :: Memory.insert m a v

/-- Take out every entry of address `a`. -/
def Memory.erase : Memory → Nat → Memory
  | [], _ => []
  | (k, w) :: m, a => if k = a then Memory.erase m a else (k, w) :: Memory.erase m a

/-- Replace the value of cell `a` by `v` and keep the canonical form (R53). -/
def Memory.write (m : Memory) (a : Nat) (v : Byte) : Memory :=
  if v = Config.cellReset then Memory.erase m a else Memory.insert (Memory.erase m a) a v

/-- Every address of the list is at least `lo` and below 256, the addresses rise strictly, and no entry
holds the reset contents. -/
def Memory.wfFrom : Nat → Memory → Bool
  | _, [] => true
  | lo, (k, v) :: m =>
    decide (lo ≤ k) && decide (k < Config.memSize) && decide (v ≠ Config.cellReset)
      && Memory.wfFrom (k + 1) m

/-- The canonical form of memory. -/
def Memory.wf (m : Memory) : Bool := Memory.wfFrom 0 m

/-- `MemRead(addr, 1)`: the byte at `addr`, no side effect (R8, R52). -/
def State.load (s : State) (addr : Byte) : Byte := Memory.read s.mem addr.toNat

/-- `MemWrite(addr, 1, v)` (R8, R53). -/
def State.store (s : State) (addr v : Byte) : State :=
  { s with mem := Memory.write s.mem addr.toNat v }

/-! ## Registers (10_state.md R20 to R22) -/

/-- `x[r]` (R8). -/
def State.reg (s : State) (r : RegIdx) : Byte := s.regs[r]

/-- `x[r] <- v` (R8). No register is hardwired (R22). -/
def State.setReg (s : State) (r : RegIdx) (v : Byte) : State := { s with regs := s.regs.set r v }

/-- `x[7]`, the stack pointer (R21). -/
def State.sp (s : State) : Byte := s.reg Config.spIndex

/-- `x[7] <- (x[7] - 1) mod 256` (43_stack_call.md R152). -/
def State.spDec (s : State) : State :=
  s.setReg Config.spIndex (BitVec.ofInt 8 ((s.sp.toNat : Int) - 1))

/-- `x[7] <- (x[7] + 1) mod 256` (R152). -/
def State.spInc (s : State) : State := s.setReg Config.spIndex (BitVec.ofNat 8 (s.sp.toNat + 1))

/-! ## Program counter, flags, halt flag, console log, fault latch -/

/-- `pc <- t`. -/
def State.setPc (s : State) (t : PcWord) : State := { s with pc := t }

/-- The advance past an instruction of `n` bytes, `pc + n` in the 9-bit program counter: the default
advance `1 + N` (40_control_unit.md R98) and a fall-through (42_compare_branch.md R138). The step's
range checks keep it from wrapping (log 6). -/
def State.advance (s : State) (n : Nat) : State := s.setPc (BitVec.ofNat 9 (s.pc.toNat + n))

/-- Write the whole flags register. -/
def State.setFl (s : State) (v : Byte) : State := { s with fl := v }

/-- `halt <- true` (R166). -/
def State.setHalt (s : State) : State := { s with halt := true }

/-- `Emit(kind, v)`: append a record to the console log (R8, R34). -/
def State.emit (s : State) (kind : OutKind) (v : Byte) : State :=
  { s with out := s.out ++ [{ kind := kind, value := v }] }

/-- `fault <- c` (R187). -/
def State.latch (s : State) (c : Condition) : State := { s with fault := some c }

/-! ## Taking a fatal condition (60_exceptions.md R187) -/

/-- `raise C(info)`, taken at the state `s` the step began with: "it discards every write of the step in
progress", sets the latch, and nothing else: `pc` is not moved, no state is saved, `halt` stays as it is.
There is no return from a fatal condition to stand beside it (R189): the only way out is reset
(`hostReset` in Machine/Session.lean). -/
def raise (c : Condition) (s : State) : Result := .next (s.latch c)

/-- The condition's code (R180); 0 means no condition. -/
def causeCode : Option Condition → Nat
  | none => 0
  | some (.unknownOpcode _ _) => 1
  | some (.addressOutOfRange _ _) => 2
  | some (.divisionByZero _) => 3
  | some (.invalidRegister _ _) => 4

/-! ## The core's status (10_state.md R39) -/

/-- Running, halted or faulted: a function of `halt` and `fault`. -/
inductive Status where
  | running
  | halted
  | faulted (c : Condition)
deriving DecidableEq, Repr

/-- The status of a state. No run reaches a state that is both halted and faulted (R39); of such a
state the latch is reported. -/
def State.status (s : State) : Status :=
  match s.fault with
  | some c => .faulted c
  | none => if s.halt then .halted else .running

/-- Halted or faulted (R11, R39). -/
def State.stopped (s : State) : Bool := s.halt || s.fault.isSome

end Sys2Proof.Machine
end

