-- ==== Sys2Proof/Machine/Flags.lean ====
section
/-! DEFINITION. The flags register: its bits (10_state.md R28), what CMP writes (42_compare_branch.md
R130), and the condition each jump tests (R131 to R137). -/

namespace Sys2Proof.Machine

/-- E, bit 0 (R28). -/
def flagE (fl : Byte) : Bool := fl.getLsbD 0

/-- G, bit 1 (R28). -/
def flagG (fl : Byte) : Bool := fl.getLsbD 1

/-- L, bit 2 (R28). -/
def flagL (fl : Byte) : Bool := fl.getLsbD 2

/-- The flags register with the three flags as given and bits 7..3 zero (R28, R130). -/
def mkFl (e g l : Bool) : Byte :=
  BitVec.ofNat 8 ((if e then 1 else 0) + (if g then 2 else 0) + (if l then 4 else 0))

/-- What CMP writes for the two values u = `x[a]` and v = `x[b]`, compared unsigned, the first against
the second (R130). All of the register is written. -/
def compareFl (u v : Byte) : Byte :=
  mkFl (decide (u.toNat = v.toNat)) (decide (u.toNat > v.toNat)) (decide (u.toNat < v.toNat))

/-- JEQ's condition (R132). -/
def condEq (fl : Byte) : Bool := flagE fl

/-- JNE's condition (R133). -/
def condNe (fl : Byte) : Bool := !flagE fl

/-- JGT's condition (R134). -/
def condGt (fl : Byte) : Bool := flagG fl

/-- JLT's condition (R135). -/
def condLt (fl : Byte) : Bool := flagL fl

/-- JLE's condition (R136). -/
def condLe (fl : Byte) : Bool := flagL fl || flagE fl

/-- JGE's condition (R137). -/
def condGe (fl : Byte) : Bool := flagG fl || flagE fl

end Sys2Proof.Machine
end

