-- ==== Sys2Proof/Machine/Operands.lean ====
section
/-! DEFINITION. The operand forms (30_encoding.md R76): a register-index operand byte with the check of
40_control_unit.md R96, alone and in pairs. The immediate of LDI is the byte itself (R77) and needs no
operation. -/

namespace Sys2Proof.Machine

/-- The register an operand byte names, none when the byte is in 8..255 (R76). -/
def regIndex (v : Byte) : Option RegIdx :=
  if h : v.toNat < 8 then some ⟨v.toNat, h⟩ else none

/-- Step 7 of R90 for operand `a`: raise `InvalidRegister(a, pc)` or go on with the register (R96). -/
def withReg (a : Byte) (s : State) (handler : RegIdx → Result) : Result :=
  match regIndex a with
  | some ra => handler ra
  | none => raise (.invalidRegister a s.pc) s

/-- Step 7 of R90 for two register operands: `a` is tested first, then `b` (R96, R99). -/
def withRegs (a b : Byte) (s : State) (handler : RegIdx → RegIdx → Result) : Result :=
  withReg a s fun ra => withReg b s fun rb => handler ra rb

end Sys2Proof.Machine
end

