-- ==== Sys2Proof/Machine/Alu.lean ====
section
/-! DEFINITION. The fourteen ALU instructions (41_alu.md; CMP: 42_compare_branch.md R130). A result is
computed exactly on numbers and narrowed to 8 bits at the end (41_alu.md R124). -/

namespace Sys2Proof.Machine

/-! ## The result functions (R124) -/

/-- `(u + v) mod 256`. -/
def aluAdd (u v : Byte) : Byte := BitVec.ofNat 8 (u.toNat + v.toNat)

/-- `(u - v) mod 256`, the non-negative residue. -/
def aluSub (u v : Byte) : Byte := BitVec.ofInt 8 ((u.toNat : Int) - (v.toNat : Int))

/-- `(u * v) mod 256`. -/
def aluMul (u v : Byte) : Byte := BitVec.ofNat 8 (u.toNat * v.toNat)

/-- `u div v`, the floor of the quotient; used for v not 0 only. -/
def aluDiv (u v : Byte) : Byte := BitVec.ofNat 8 (u.toNat / v.toNat)

/-- `u mod v`; used for v not 0 only. -/
def aluMod (u v : Byte) : Byte := BitVec.ofNat 8 (u.toNat % v.toNat)

/-- `u & v`. -/
def aluAnd (u v : Byte) : Byte := u &&& v

/-- `u | v`. -/
def aluOr (u v : Byte) : Byte := u ||| v

/-- `u ^ v`. -/
def aluXor (u v : Byte) : Byte := u ^^^ v

/-- `(u * 2^v) mod 256`: the whole byte is the count (R121). -/
def aluShl (u v : Byte) : Byte := BitVec.ofNat 8 (u.toNat * 2 ^ v.toNat)

/-- `u div 2^v`: the whole byte is the count (R122). -/
def aluShr (u v : Byte) : Byte := BitVec.ofNat 8 (u.toNat / 2 ^ v.toNat)

/-- `(u + 1) mod 256`. -/
def aluInc (u : Byte) : Byte := BitVec.ofNat 8 (u.toNat + 1)

/-- `(u - 1) mod 256`. -/
def aluDec (u : Byte) : Byte := BitVec.ofInt 8 ((u.toNat : Int) - 1)

/-- `255 - u`. -/
def aluNot (u : Byte) : Byte := BitVec.ofNat 8 (255 - u.toNat)

/-! ## The shared shapes (R123) -/

/-- A two-register operation: `x[a] <- f(x[a], x[b])`, both read before the write, then the advance by
3 (R123, R98). -/
def aluBinary (f : Byte → Byte → Byte) (a b : Byte) (s : State) : Result :=
  withRegs a b s fun ra rb => .next ((s.setReg ra (f (s.reg ra) (s.reg rb))).advance 3)

/-- The same for DIV and MOD: `DivisionByZero(pc)` when `x[b]` is 0, before anything is written (R183). -/
def aluDivide (f : Byte → Byte → Byte) (a b : Byte) (s : State) : Result :=
  withRegs a b s fun ra rb =>
    if s.reg rb = 0 then raise (.divisionByZero s.pc) s
    else .next ((s.setReg ra (f (s.reg ra) (s.reg rb))).advance 3)

/-- A one-register operation: `x[a] <- f(x[a])`, then the advance by 2 (R123, R98). -/
def aluUnary (f : Byte → Byte) (a : Byte) (s : State) : Result :=
  withReg a s fun ra => .next ((s.setReg ra (f (s.reg ra))).advance 2)

/-! ## The meanings -/

/-- ADD Ra,Rb (R110). -/
def execAdd (a b : Byte) (s : State) : Result := aluBinary aluAdd a b s

/-- SUB Ra,Rb (R111). -/
def execSub (a b : Byte) (s : State) : Result := aluBinary aluSub a b s

/-- MUL Ra,Rb (R112). -/
def execMul (a b : Byte) (s : State) : Result := aluBinary aluMul a b s

/-- DIV Ra,Rb (R113). -/
def execDiv (a b : Byte) (s : State) : Result := aluDivide aluDiv a b s

/-- MOD Ra,Rb (R114). -/
def execMod (a b : Byte) (s : State) : Result := aluDivide aluMod a b s

/-- AND Ra,Rb (R117). -/
def execAnd (a b : Byte) (s : State) : Result := aluBinary aluAnd a b s

/-- OR Ra,Rb (R118). -/
def execOr (a b : Byte) (s : State) : Result := aluBinary aluOr a b s

/-- XOR Ra,Rb (R119). -/
def execXor (a b : Byte) (s : State) : Result := aluBinary aluXor a b s

/-- SHL Ra,Rb (R121). -/
def execShl (a b : Byte) (s : State) : Result := aluBinary aluShl a b s

/-- SHR Ra,Rb (R122). -/
def execShr (a b : Byte) (s : State) : Result := aluBinary aluShr a b s

/-- INC Ra (R115). -/
def execInc (a : Byte) (s : State) : Result := aluUnary aluInc a s

/-- DEC Ra (R116). -/
def execDec (a : Byte) (s : State) : Result := aluUnary aluDec a s

/-- NOT Ra (R120). -/
def execNot (a : Byte) (s : State) : Result := aluUnary aluNot a s

/-- CMP Ra,Rb (R130): writes the flags register and no other. -/
def execCmp (a b : Byte) (s : State) : Result :=
  withRegs a b s fun ra rb => .next ((s.setFl (compareFl (s.reg ra) (s.reg rb))).advance 3)

end Sys2Proof.Machine
end

