-- ==== Sys2Proof/Machine/Branch.lean ====
section
/-! DEFINITION. The seven jumps (42_compare_branch.md R131 to R139). -/

namespace Sys2Proof.Machine

/-- A jump on a condition: taken, `pc` becomes the target register's value, zero-extended (R139); not
taken, the handler itself advances past the two bytes of the jump (R138). The register index is
checked either way (R139 (h)). -/
def jumpIf (cond : Bool) (a : Byte) (s : State) : Result :=
  withReg a s fun ra => .next (if cond then s.setPc (zext9 (s.reg ra)) else s.advance 2)

/-- JMP Ra (R131). -/
def execJmp (a : Byte) (s : State) : Result := jumpIf true a s

/-- JEQ Ra (R132). -/
def execJeq (a : Byte) (s : State) : Result := jumpIf (condEq s.fl) a s

/-- JNE Ra (R133). -/
def execJne (a : Byte) (s : State) : Result := jumpIf (condNe s.fl) a s

/-- JGT Ra (R134). -/
def execJgt (a : Byte) (s : State) : Result := jumpIf (condGt s.fl) a s

/-- JLT Ra (R135). -/
def execJlt (a : Byte) (s : State) : Result := jumpIf (condLt s.fl) a s

/-- JLE Ra (R136). -/
def execJle (a : Byte) (s : State) : Result := jumpIf (condLe s.fl) a s

/-- JGE Ra (R137). -/
def execJge (a : Byte) (s : State) : Result := jumpIf (condGe s.fl) a s

end Sys2Proof.Machine
end

