-- ==== Sys2Proof/Machine/Misc.lean ====
section
/-! DEFINITION. Load immediate, load, store, console output, NOP and HLT (44_misc.md R160 to R167). -/

namespace Sys2Proof.Machine

/-- LDI Ra,imm (R160): the immediate is never tested as a register index. -/
def execLdi (a imm : Byte) (s : State) : Result :=
  withReg a s fun ra => .next ((s.setReg ra imm).advance 3)

/-- LD Ra,Rb (R161): `x[a] <- MemRead(x[b], 1)`. -/
def execLd (a b : Byte) (s : State) : Result :=
  withRegs a b s fun ra rb => .next ((s.setReg ra (s.load (s.reg rb))).advance 3)

/-- ST Ra,Rb (R162): `MemWrite(x[a], 1, x[b])`. -/
def execSt (a b : Byte) (s : State) : Result :=
  withRegs a b s fun ra rb => .next ((s.store (s.reg ra) (s.reg rb)).advance 3)

/-- A console instruction: `Emit(kind, x[a])` (R163, R164). -/
def emitReg (kind : OutKind) (a : Byte) (s : State) : Result :=
  withReg a s fun ra => .next ((s.emit kind (s.reg ra)).advance 2)

/-- PRN Ra (R163). -/
def execPrn (a : Byte) (s : State) : Result := emitReg .prn a s

/-- PRA Ra (R164). -/
def execPra (a : Byte) (s : State) : Result := emitReg .pra a s

/-- NOP (R165). -/
def execNop (s : State) : Result := .next (s.advance 1)

/-- HLT (R166): set the halt flag; the control unit then advances `pc` by 1 (R98). -/
def execHlt (s : State) : Result := .next (s.setHalt.advance 1)

end Sys2Proof.Machine
end

