-- ==== Sys2Proof/Machine/Stack.lean ====
section
/-! DEFINITION. Stack and subroutine linkage, and the two reserved opcodes (43_stack_call.md R145 to
R152). The lines of each rule's pseudocode run in order, a later line seeing the writes of an earlier
one (00_scope.md R8); this shows when the operand is R7. -/

namespace Sys2Proof.Machine

/-- Store `v` where the stack pointer points. -/
def State.storeTop (s : State) (v : Byte) : State := s.store s.sp v

/-- PUSH Ra (R145): decrement the stack pointer, then store `x[a]`, read after the decrement. -/
def execPush (a : Byte) (s : State) : Result :=
  withReg a s fun ra => .next ((s.spDec.storeTop (s.spDec.reg ra)).advance 2)

/-- POP Ra (R146): load the top of stack into `x[a]`, then increment the stack pointer. -/
def execPop (a : Byte) (s : State) : Result :=
  withReg a s fun ra => .next ((s.setReg ra (s.load s.sp)).spInc.advance 2)

/-- CALL Ra (R147): push the return address `pc + 2`, then jump to `x[a]`, read after the push. A
return address above 255 raises before anything is written. -/
def execCall (a : Byte) (s : State) : Result :=
  withReg a s fun ra =>
    if s.pc.toNat + 2 > 255 then raise (.addressOutOfRange (s.pc.toNat + 2) s.pc) s
    else .next ((s.spDec.storeTop (BitVec.ofNat 8 (s.pc.toNat + 2))).setPc (zext9 (s.spDec.reg ra)))

/-- RET (R148): load the top of stack into `pc`, then increment the stack pointer. -/
def execRet (s : State) : Result := .next (s.setPc (zext9 (s.load s.sp))).spInc

/-- INT (R150): `raise UnknownOpcode(0x52, pc)`. The operand is never looked at. -/
def execInt (_a : Byte) (s : State) : Result := raise (.unknownOpcode 0x52 s.pc) s

/-- IRET (R151): `raise UnknownOpcode(0x13, pc)`. -/
def execIret (s : State) : Result := raise (.unknownOpcode 0x13 s.pc) s

end Sys2Proof.Machine
end

