-- ==== Sys2Proof/Syntax.lean ====
section
/-! DEFINITION. The instructions: one constructor per row of the dispatch table (30_encoding.md R78).
An operand is the operand byte itself, as the handler receives it (40_control_unit.md R97): "an operand
byte is never illegal as an encoding", and a register-index operand above 7 is a fatal condition that
the instruction raises (R80, R96). WellFormed.lean says which operand bytes name a register. -/

namespace Sys2Proof

/-- The 34 instructions, in the order of their opcode values. `a` is the first operand byte, `b` the
second, `imm` the immediate of LDI (R76, R77). -/
inductive Instr where
  | nop
  | hlt
  | ret
  | iret
  | push (a : Byte)
  | pop (a : Byte)
  | prn (a : Byte)
  | pra (a : Byte)
  | call (a : Byte)
  | int (a : Byte)
  | jmp (a : Byte)
  | jeq (a : Byte)
  | jne (a : Byte)
  | jgt (a : Byte)
  | jlt (a : Byte)
  | jle (a : Byte)
  | jge (a : Byte)
  | inc (a : Byte)
  | dec (a : Byte)
  | not (a : Byte)
  | ldi (a imm : Byte)
  | ld (a b : Byte)
  | st (a b : Byte)
  | add (a b : Byte)
  | sub (a b : Byte)
  | mul (a b : Byte)
  | div (a b : Byte)
  | mod (a b : Byte)
  | cmp (a b : Byte)
  | and (a b : Byte)
  | or (a b : Byte)
  | xor (a b : Byte)
  | shl (a b : Byte)
  | shr (a b : Byte)
deriving DecidableEq, Repr

/-- The operand bytes of kind "register index", in the order the control unit tests them
(30_encoding.md R76, 40_control_unit.md R96). LDI's immediate is not one; INT's operand is never looked
at (R76, R150). -/
def Instr.regOperands : Instr → List Byte
  | .nop | .hlt | .ret | .iret | .int _ => []
  | .push a | .pop a | .prn a | .pra a | .call a => [a]
  | .jmp a | .jeq a | .jne a | .jgt a | .jlt a | .jle a | .jge a => [a]
  | .inc a | .dec a | .not a => [a]
  | .ldi a _ => [a]
  | .ld a b | .st a b => [a, b]
  | .add a b | .sub a b | .mul a b | .div a b | .mod a b | .cmp a b => [a, b]
  | .and a b | .or a b | .xor a b | .shl a b | .shr a b => [a, b]

end Sys2Proof
end

