-- ==== Sys2Proof/WellFormed.lean ====
section
/-! DEFINITION. Which instructions are well formed: every operand byte that is a register index is in
0..7 (30_encoding.md R76). -/

namespace Sys2Proof

/-- A byte names a register when its bits 7..3 are 0 (R76). -/
def validReg (v : Byte) : Bool := decide (v.toNat < 8)

/-- Every register-index operand names a register. An instruction that is not well formed still has
a meaning: it raises `InvalidRegister` (R96). -/
def Instr.wf (i : Instr) : Bool := i.regOperands.all validReg

end Sys2Proof
end

