-- ==== Sys2Proof/Decode.lean ====
section
/-! DEFINITION. The encoding, read both ways (30_encoding.md R70 to R81): the fields of an opcode byte,
the dispatch table, the decoder, total on any bytes and rejecting by name, and after it the encoder. -/

namespace Sys2Proof

/-! ## The opcode byte's fields, `NNAPIIII` (R71) -/

/-- `N` = `op[7:6]`: the operand count (R71, R72). -/
def opN (op : Byte) : Nat := op.toNat / 64

/-- `A` = `op[5]`: an ALU operation (R71, R73). -/
def opA (op : Byte) : Bool := op.getLsbD 5

/-- `P` = `op[4]`: the handler sets the program counter (R71, R74). -/
def opP (op : Byte) : Bool := op.getLsbD 4

/-- `I` = `op[3:0]`: the identifier within its class (R71, R75). -/
def opI (op : Byte) : Nat := op.toNat % 16

/-! ## The dispatch table (R78, R102) -/

/-- What the table holds for an opcode: the instruction's format (R70), with the instruction as a
function of its operand bytes. -/
inductive Entry where
  | f0 (i : Instr)
  | f1 (mk : Byte → Instr)
  | f2 (mk : Byte → Byte → Instr)

/-- The operand count of a format (R70). -/
def Entry.operands : Entry → Nat
  | .f0 _ => 0
  | .f1 _ => 1
  | .f2 _ => 2

/-- Format F0 rows of R78. -/
def tableF0 : List (Byte × Entry) :=
  [ (0x00, .f0 .nop), (0x01, .f0 .hlt), (0x11, .f0 .ret), (0x13, .f0 .iret) ]

/-- Format F1 rows of R78. -/
def tableF1 : List (Byte × Entry) :=
  [ (0x45, .f1 .push), (0x46, .f1 .pop), (0x47, .f1 .prn), (0x48, .f1 .pra), (0x50, .f1 .call),
    (0x52, .f1 .int), (0x54, .f1 .jmp), (0x55, .f1 .jeq), (0x56, .f1 .jne), (0x57, .f1 .jgt),
    (0x58, .f1 .jlt), (0x59, .f1 .jle), (0x5A, .f1 .jge), (0x65, .f1 .inc), (0x66, .f1 .dec),
    (0x69, .f1 .not) ]

/-- Format F2 rows of R78. -/
def tableF2 : List (Byte × Entry) :=
  [ (0x82, .f2 .ldi), (0x83, .f2 .ld), (0x84, .f2 .st), (0xA0, .f2 .add), (0xA1, .f2 .sub),
    (0xA2, .f2 .mul), (0xA3, .f2 .div), (0xA4, .f2 .mod), (0xA7, .f2 .cmp), (0xA8, .f2 .and),
    (0xAA, .f2 .or), (0xAB, .f2 .xor), (0xAC, .f2 .shl), (0xAD, .f2 .shr) ]

/-- The 34 rows of R78. -/
def dispatchTable : List (Byte × Entry) := tableF0 ++ tableF1 ++ tableF2

/-- The first row whose opcode is `op`. -/
def findEntry : List (Byte × Entry) → Byte → Option Entry
  | [], _ => none
  | (k, e) :: rows, op => if op = k then some e else findEntry rows op

/-- Lookup by the whole opcode byte (R75). -/
def lookupOp (op : Byte) : Option Entry := findEntry dispatchTable op

/-- The two reserved entries, INT and IRET: in the table, with no function (R81). -/
def reservedOp (op : Byte) : Bool := op == 0x52 || op == 0x13

/-! ## The decoder -/

/-- Why bytes are no instruction. -/
inductive DecodeError where
  /-- There is no opcode byte to decode. -/
  | noOpcode
  /-- The byte is not in the dispatch table (R80), or is reserved and stands where its operand byte
  would not (R92: the lookup fails before any operand is fetched). -/
  | unknownOpcode (op : Byte)
  /-- The opcode is a functioning one and an operand byte it has is missing (R94). -/
  | missingOperand (op : Byte)
deriving DecidableEq, Repr

/-- Decode one instruction from the front of a list of bytes, and give back the bytes after it. The
lookup is tested before the operands (R99). -/
def decode : List Byte → Except DecodeError (Instr × List Byte)
  | [] => .error .noOpcode
  | op :: rest =>
    match lookupOp op, rest with
    | none, _ => .error (.unknownOpcode op)
    | some (.f0 i), rest => .ok (i, rest)
    | some (.f1 mk), a :: rest => .ok (mk a, rest)
    | some (.f2 mk), a :: b :: rest => .ok (mk a b, rest)
    | some _, _ => .error (if reservedOp op then .unknownOpcode op else .missingOperand op)

/-- The first `n` bytes of the number `w`, least significant first: the first byte of an instruction
is bits 7..0 of the opcode table's numbering, the second bits 15..8, the third bits 23..16. -/
def bytesOfWord : Nat → Nat → List Byte
  | 0, _ => []
  | n + 1, w => BitVec.ofNat 8 w :: bytesOfWord n (w / 256)

/-- The instruction the decoder reads from an instruction whose bits are the low `nbits` bits of `w`,
every higher bit 0, up to the longest instruction, three bytes (R70). -/
def decodeTableWord (nbits w : Nat) : Option Instr :=
  match decode (bytesOfWord 3 (w % 2 ^ nbits)) with
  | .ok (i, _) => some i
  | .error _ => none

/-! ## The encoder -/

/-- The bytes of an instruction: the opcode of R78, then the operand bytes (R70). -/
def encode : Instr → List Byte
  | .nop => [0b00000000#8]
  | .hlt => [0b00000001#8]
  | .ret => [0b00010001#8]
  | .iret => [0b00010011#8]
  | .push a => [0b01000101#8, a]
  | .pop a => [0b01000110#8, a]
  | .prn a => [0b01000111#8, a]
  | .pra a => [0b01001000#8, a]
  | .call a => [0b01010000#8, a]
  | .int a => [0b01010010#8, a]
  | .jmp a => [0b01010100#8, a]
  | .jeq a => [0b01010101#8, a]
  | .jne a => [0b01010110#8, a]
  | .jgt a => [0b01010111#8, a]
  | .jlt a => [0b01011000#8, a]
  | .jle a => [0b01011001#8, a]
  | .jge a => [0b01011010#8, a]
  | .inc a => [0b01100101#8, a]
  | .dec a => [0b01100110#8, a]
  | .not a => [0b01101001#8, a]
  | .ldi a imm => [0b10000010#8, a, imm]
  | .ld a b => [0b10000011#8, a, b]
  | .st a b => [0b10000100#8, a, b]
  | .add a b => [0b10100000#8, a, b]
  | .sub a b => [0b10100001#8, a, b]
  | .mul a b => [0b10100010#8, a, b]
  | .div a b => [0b10100011#8, a, b]
  | .mod a b => [0b10100100#8, a, b]
  | .cmp a b => [0b10100111#8, a, b]
  | .and a b => [0b10101000#8, a, b]
  | .or a b => [0b10101010#8, a, b]
  | .xor a b => [0b10101011#8, a, b]
  | .shl a b => [0b10101100#8, a, b]
  | .shr a b => [0b10101101#8, a, b]

/-- The opcode byte of an instruction (R70). -/
def Instr.opcode (i : Instr) : Byte := (encode i).headD 0

/-- The length in bytes, 1 + N (R72). -/
def Instr.length (i : Instr) : Nat := (encode i).length

end Sys2Proof
end

