-- ==== Sys2Proof/Machine/Fetch.lean ====
section
/-! DEFINITION. Instruction fetch (40_control_unit.md R91 to R95): the bytes the step gives the decoder,
and the fatal condition for each way they are no instruction. -/

namespace Sys2Proof.Machine

/-- Up to `n` operand bytes from address `addr` on, those that lie in memory (R94). -/
def operandBytes (m : Memory) : Nat → Nat → List Byte
  | _, 0 => []
  | addr, n + 1 =>
    if addr ≤ 255 then Memory.read m addr :: operandBytes m (addr + 1) n else []

/-- The bytes of the instruction at `pc`: none when `pc > 255` (R91); else the opcode byte (R92) and as
many operand bytes as its field `N` counts (R93, R94), as far as memory reaches. A byte the instruction
does not have is not read (R95). -/
def fetchBytes (s : State) : List Byte :=
  if s.pc.toNat ≤ 255 then
    Memory.read s.mem s.pc.toNat ::
      operandBytes s.mem (s.pc.toNat + 1) (opN (Memory.read s.mem s.pc.toNat))
  else []

/-- The condition a failed fetch or lookup raises: no opcode byte is step 1 of R90 (R91), an unknown
opcode step 3 (R92), a missing operand step 5, which always reports address 256 (R94). -/
def fetchFailure (e : DecodeError) (s : State) : Result :=
  match e with
  | .noOpcode => raise (.addressOutOfRange s.pc.toNat s.pc) s
  | .unknownOpcode op => raise (.unknownOpcode op s.pc) s
  | .missingOperand _ => raise (.addressOutOfRange 256 s.pc) s

/-- Store the bytes of a list at consecutive addresses from `addr`, those that lie in memory. -/
def State.storeBytes (s : State) : Nat → List Byte → State
  | _, [] => s
  | addr, v :: vs =>
    if addr ≤ 255 then (s.store (BitVec.ofNat 8 addr) v).storeBytes (addr + 1) vs else s

end Sys2Proof.Machine
end

