-- ==== Sys2Proof/Machine/Step.lean ====
section
/-! DEFINITION. One step of the core (40_control_unit.md R90), and an instruction placed where the step
fetches. -/

namespace Sys2Proof.Machine

/-- One step, the whole execution of one instruction (R90). A stopped core takes no step (R101): the
answer is a fault of the model's, by name. -/
def step (s : State) : Host.Outcome State Fault Refusal :=
  match s.status with
  | .halted => .fault .coreHalted
  | .faulted c => .fault (.coreFaulted c)
  | .running =>
    match decode (fetchBytes s) with
    | .ok (i, _) => exec i s
    | .error e => fetchFailure e s

/-- `s` with the instruction whose bits are the low `nbits` bits of `w` stored at `pc`, three bytes in
all, the higher bits 0. It stands for the host's load of a program (R204; log 1). -/
def State.withFetchWord (s : State) (nbits w : Nat) : State :=
  s.storeBytes s.pc.toNat (bytesOfWord 3 (w % 2 ^ nbits))

end Sys2Proof.Machine
end

