-- ==== Sys2Proof/Machine/Boundary.lean ====
section
/-! DEFINITION. What the host's moves come to for the core's state (70_reset_and_hazards.md R204 to R208): a
loaded image, the run loop, and the rendering of the console log. The moves themselves, each in its
window, are in Machine/Session.lean. -/

namespace Sys2Proof.Machine

/-- What the loader's moves leave in memory (`loadMoves`, before run): the image at consecutive cells from
address 0 (R204). An image is at most 256 bytes; bytes past address 255 have no cell. -/
def loadImage (image : List Byte) (s : State) : State := s.storeBytes 0 image

/-- `run()` with a budget of `n` steps (R101, R205): steps are taken while the core is running. A run
that never stops (R214) has no budget that ends it. -/
def run : Nat → State → State
  | 0, s => s
  | n + 1, s =>
    match step s with
    | .next t => run n t
    | .fault _ => s
    | .refused _ => s

/-- The decimal digits of a number below 1000, no leading zeros, "0" for zero (R207). -/
def decimalDigits (n : Nat) : List Nat :=
  if n < 10 then [n] else if n < 100 then [n / 10, n % 10] else [n / 100, n / 10 % 10, n % 10]

/-- The character of a decimal digit. -/
def digitChar (d : Nat) : Char := Char.ofNat (48 + d)

/-- The characters a record stands for: a PRN its value in decimal and one newline (code point 10), a
PRA the one character whose code point is the value (R207). -/
def renderRecord (r : OutRecord) : List Char :=
  match r.kind with
  | .prn => (decimalDigits r.value.toNat).map digitChar ++ [Char.ofNat 10]
  | .pra => [Char.ofNat r.value.toNat]

/-- The log on the host's output stream, in order, as characters (R207). -/
def renderLog (out : List OutRecord) : List Char := out.flatMap renderRecord

/-- The bytes of a character: one byte for code points 0..127, `CONSOLE_ENCODING`'s for 128..255 (R207). -/
def charBytes (v : Byte) : List Byte := if v.toNat < 128 then [v] else Config.consoleEncoding v

/-- The bytes of a record on a byte stream (R207). -/
def recordBytes (r : OutRecord) : List Byte :=
  match r.kind with
  | .prn => (decimalDigits r.value.toNat).map (fun d => BitVec.ofNat 8 (48 + d)) ++ [10]
  | .pra => charBytes r.value

/-- The log on a byte stream (R207). -/
def streamBytes (out : List OutRecord) : List Byte := out.flatMap recordBytes

end Sys2Proof.Machine
end

