-- ==== Sys2Proof/Machine/Session.lean ====
section
/-! DEFINITION. The core and its host as two agents (70_reset_and_hazards.md R211): the windows in which the
host may act (R206), every move of either agent, guarded by its window, and sequences of moves. The core
itself has no phase (10_state.md R36, R37); what tells "before run" from "during the run" is that `run()`
has been called (R201), and that is held here, beside the core (log 9). -/

namespace Sys2Proof.Machine

/-- The core, and whether the host has called `run` since the last reset (R201, R205). -/
structure Session where
  core : State
  started : Bool
deriving DecidableEq, Repr

/-- The windows of R206. -/
inductive Window where
  /-- Between reset and `run`: memory writes. -/
  | beforeRun
  /-- While the core runs: no access of the host's. -/
  | duringRun
  /-- After the stop: reads, and no writes. -/
  | afterStop
deriving DecidableEq, Repr

/-- The window a session is in. A stopped core is never in a window that allows a write. -/
def Session.window (p : Session) : Window :=
  if p.core.stopped then .afterStop else if p.started then .duringRun else .beforeRun

/-- Why a move is not made: it stands outside its window, and the session stays as it is. -/
inductive OutsideWindow where
  /-- The core has not been started: it takes no step and there is nothing to read (R201, R206). -/
  | beforeRun
  /-- A run is going on: "a model gives the host no move during the run" (R206). -/
  | duringRun
  /-- The core has stopped: it takes no step (R101) and the host "writes nothing then" (R206). -/
  | afterStop
deriving DecidableEq, Repr

/-- A core just reset, not started: reset starts nothing (R201). -/
def Session.reset : Session where
  core := State.reset
  started := false

/-! ## The host's moves -/

/-- `reset()`: applied at any time, always the same result (R200). A run in progress is abandoned: the
core takes no further step until the next `run` (R201). It is the only way out of the halted or the
faulted state (R189). -/
def hostReset (_p : Session) : Session := Session.reset

/-- `load(addr, byte)`: the host writes one memory cell and nothing else, between reset and run (R204,
R206). -/
def hostLoad (addr v : Byte) (p : Session) : Except OutsideWindow Session :=
  match p.window with
  | .beforeRun => .ok { p with core := p.core.store addr v }
  | .duringRun => .error .duringRun
  | .afterStop => .error .afterStop

/-- `run()`: starts the loop of R101, whose turns are the core's own moves (`coreStep`). On a stopped core
it returns at once and changes nothing (R101); a run in progress is not called again (R206). -/
def hostRun (p : Session) : Except OutsideWindow Session :=
  match p.window with
  | .beforeRun => .ok { p with started := true }
  | .duringRun => .error .duringRun
  | .afterStop => .ok p

/-- What the host reads of a stopped core: everything (R206, R212). -/
def hostRead (p : Session) : Except OutsideWindow State :=
  match p.window with
  | .beforeRun => .error .beforeRun
  | .duringRun => .error .duringRun
  | .afterStop => .ok p.core

/-! ## The core's move -/

/-- One turn of the run loop (R101): a step, taken while the run goes on and at no other time (R201). -/
def coreStep (p : Session) : Except OutsideWindow Session :=
  match p.window with
  | .beforeRun => .error .beforeRun
  | .duringRun =>
    match step p.core with
    | .next t => .ok { p with core := t }
    | .fault _ => .error .afterStop
    | .refused _ => .error .afterStop
  | .afterStop => .error .afterStop

/-! ## Sequences of moves -/

/-- A move of the host or of the core (R211, R212). -/
inductive Move where
  | reset
  | load (addr v : Byte)
  | run
  | read
  | step
deriving DecidableEq, Repr

/-- What a move makes of the session; a read leaves it as it is. -/
def Session.act (m : Move) (p : Session) : Except OutsideWindow Session :=
  match m with
  | .reset => .ok (hostReset p)
  | .load addr v => hostLoad addr v p
  | .run => hostRun p
  | .read => (hostRead p).map fun _ => p
  | .step => coreStep p

/-- Moves one after another, never overlapping (R211), to the end or to the first outside its window. -/
def Session.acts : List Move → Session → Except OutsideWindow Session
  | [], p => .ok p
  | m :: ms, p =>
    match p.act m with
    | .ok q => q.acts ms
    | .error w => .error w

/-- The loader's moves: the image at consecutive cells from address `addr` up (R204). -/
def loadMoves : Nat → List Byte → List Move
  | _, [] => []
  | addr, v :: vs => if addr ≤ 255 then .load (BitVec.ofNat 8 addr) v :: loadMoves (addr + 1) vs else []

end Sys2Proof.Machine
end

