-- ==== Sys2Proof/Safety.lean ====
section
/-! DEFINITION. The terms the statements use: what a good and a bad end of a run are (R208), what a step
leaves untouched, and the invariant of the machine (10_state.md R25, R29, R32, R39). -/

namespace Sys2Proof.Machine

/-! ## The end of a run (70_reset_and_hazards.md R208) -/

/-- The core is running: neither halted nor faulted (R39). -/
def State.Running (s : State) : Prop := s.halt = false ∧ s.fault = none

/-- The run ended well: halted, with no condition latched (R208). -/
def State.EndedWell (s : State) : Prop := s.halt = true ∧ s.fault = none

/-- The run ended badly: a condition is latched and the halt flag is not set (R208). -/
def State.EndedBadly (s : State) : Prop := s.halt = false ∧ s.fault ≠ none

/-- A safe state: no fatal condition has stopped the core. -/
def State.Safe (s : State) : Prop := s.fault = none

/-- `t` is reached from `s` by steps. -/
inductive Reaches : State → State → Prop where
  | refl (s : State) : Reaches s s
  | tail {s t u : State} : Reaches s t → step t = .next u → Reaches s u

/-! ## Frames -/

/-- From `s` to `t` every register but those of `rs` and every memory cell but those of `cs` keeps its
value, and so do the halt flag and the fault latch. -/
def Untouched (rs : List RegIdx) (cs : List Byte) (s t : State) : Prop :=
  (∀ r, r ∉ rs → t.reg r = s.reg r) ∧ (∀ c, c ∉ cs → t.load c = s.load c) ∧
    t.halt = s.halt ∧ t.fault = s.fault

/-- The same, and the flags register and the console log keep theirs. -/
def Quiet (rs : List RegIdx) (cs : List Byte) (s t : State) : Prop :=
  Untouched rs cs s t ∧ t.fl = s.fl ∧ t.out = s.out

/-- `t` is `s` with a fatal condition latched and nothing else changed (R187). -/
def Raised (s t : State) : Prop := ∃ c, t = { s with fault := some c }

/-- `s` and `t` agree in everything but the console log. -/
def SameButOut (s t : State) : Prop :=
  t.regs = s.regs ∧ t.pc = s.pc ∧ t.fl = s.fl ∧ t.halt = s.halt ∧ t.fault = s.fault ∧ t.mem = s.mem

/-! ## The functioning opcodes -/

/-- The 32 functioning opcode bytes, in the order of 30_encoding.md R78: its rows without INT (0x52) and
IRET (0x13). -/
def functioningOpcodes : List Byte :=
  [0x00, 0x01, 0x11, 0x45, 0x46, 0x47, 0x48, 0x50, 0x54, 0x55, 0x56, 0x57, 0x58, 0x59, 0x5A, 0x65,
   0x66, 0x69, 0x82, 0x83, 0x84, 0xA0, 0xA1, 0xA2, 0xA3, 0xA4, 0xA7, 0xA8, 0xAA, 0xAB, 0xAC, 0xAD]

/-- The opcode byte stands at `pc`, inside memory. -/
def OpcodeAt (s : State) (op : Byte) : Prop := s.pc.toNat ≤ 255 ∧ Memory.read s.mem s.pc.toNat = op

/-- The bytes `bs` stand in memory from address `addr` on, all of them inside it. -/
def BytesAt (s : State) (addr : Nat) (bs : List Byte) : Prop :=
  addr + bs.length ≤ 256 ∧ ∀ k (h : k < bs.length), Memory.read s.mem (addr + k) = bs[k]

/-! ## The invariant -/

/-- A latched condition tells the truth about the stopped state it stands in (R180, R187): `pc` is the
address it names, and the bytes there have the cause R180 gives. -/
def LatchExplained (s : State) : Prop :=
  match s.fault with
  | none => True
  | some (.unknownOpcode byte addr) =>
    addr = s.pc ∧ OpcodeAt s byte ∧ byte ∉ functioningOpcodes
  | some (.addressOutOfRange addr pcAt) =>
    addr = 256 ∧ pcAt = s.pc ∧
      (s.pc.toNat = 256 ∨
        ∃ op, OpcodeAt s op ∧ op ∈ functioningOpcodes ∧
          (s.pc.toNat + opN op > 255 ∨ op = 0x50 ∧ s.pc.toNat = 254))
  | some (.divisionByZero pcAt) =>
    pcAt = s.pc ∧ ∃ op, (op = 0xA3 ∨ op = 0xA4) ∧ OpcodeAt s op ∧
      ∃ r : RegIdx, Memory.read s.mem (s.pc.toNat + 2) = regByte r ∧ s.reg r = 0
  | some (.invalidRegister byte pcAt) =>
    pcAt = s.pc ∧ byte.toNat > 7 ∧
      (Memory.read s.mem (s.pc.toNat + 1) = byte ∨ Memory.read s.mem (s.pc.toNat + 2) = byte)

/-- What every step keeps. -/
structure CoreInv (s : State) : Prop where
  /-- Memory is in its canonical form. -/
  mem_wf : Memory.wf s.mem = true
  /-- "Reachable values are 0..256 only" (R25). -/
  pc_le : s.pc.toNat ≤ 256
  /-- `fl` is 0, 1, 2 or 4 (R29, R140). -/
  fl_legal : s.fl = 0 ∨ s.fl = 1 ∨ s.fl = 2 ∨ s.fl = 4
  /-- Halted and faulted "cannot hold together" (R39). -/
  one_stop : s.halt = true → s.fault = none
  /-- A halted core stands one past the HLT that halted it (R166, R208). -/
  halt_at_hlt : s.halt = true → ∃ p, s.pc.toNat = p + 1 ∧ Memory.read s.mem p = 0x01
  /-- The latch tells the truth (R180, R187). -/
  latch : LatchExplained s

/-- What every move of the host or the core keeps (R204 to R206, R211): the core is some number of steps into
a run from the reset state with bytes written to memory before it, it has taken no step before `run` is
called (R201), and it has the core's own invariant. -/
structure SessionInv (p : Session) : Prop where
  run_of_written_reset : ∃ (ws : List (Byte × Byte)) (n : Nat),
    p.core = run n (ws.foldl (fun s w => s.store w.1 w.2) State.reset) ∧ (p.started = false → n = 0)
  core_inv : CoreInv p.core

end Sys2Proof.Machine
end

