-- ==== Sys2Proof/Certificates/Slice0/Obligations.lean ====
section
/-! DEFINITION. The statements for the provers. Each says in its docstring which rule of spec/ it comes
from; where a clause is the spec's own decision (92_eei_decisions.md D<n>) and not the source's, the
docstring names it. A register operand is written `regByte r`: the operand byte that names register r;
bytes that name no register have a statement of their own (InvalidOperandRaises). -/

open Sys2Proof Sys2Proof.Machine

/-! ## Shapes the statements share -/

namespace Sys2Proof.Claims

/-- A two-register ALU instruction completes from every state: `x[a]` becomes `f(x[a], x[b])` of the values
before, `pc` advances by 3, and every other register, every memory cell, the flags, the halt flag, the
fault latch and the console log keep their values (R123). -/
def BinaryResult (mk : Byte → Byte → Instr) (f : Nat → Nat → Nat) : Prop :=
  ∀ (a b : RegIdx) (s : State), ∃ t, exec (mk (regByte a) (regByte b)) s = .next t ∧
    (t.reg a).toNat = f (s.reg a).toNat (s.reg b).toNat ∧ t.pc = s.pc + 3 ∧ Quiet [a] [] s t

/-- The same for a one-register ALU instruction, with `pc` advanced by 2 (R123). -/
def UnaryResult (mk : Byte → Instr) (f : Nat → Nat) : Prop :=
  ∀ (a : RegIdx) (s : State), ∃ t, exec (mk (regByte a)) s = .next t ∧
    (t.reg a).toNat = f (s.reg a).toNat ∧ t.pc = s.pc + 2 ∧ Quiet [a] [] s t

/-- A jump completes from every state: `pc` becomes the target register's value when the condition holds
of the flags register and `pc + 2` when it does not, and nothing else changes (R138, R139). -/
def JumpResult (mk : Byte → Instr) (cond : Byte → Prop) : Prop :=
  ∀ (a : RegIdx) (s : State), ∃ t, exec (mk (regByte a)) s = .next t ∧
    (cond s.fl → t.pc.toNat = (s.reg a).toNat) ∧ (¬ cond s.fl → t.pc = s.pc + 2) ∧ Quiet [] [] s t

/-- Where a jump goes from `s`: to the register's value. -/
def Taken (mk : Byte → Instr) (a : RegIdx) (s : State) : Prop :=
  exec (mk (regByte a)) s = .next { s with pc := zext9 (s.reg a) }

/-- Where a jump goes from `s`: past itself. -/
def NotTaken (mk : Byte → Instr) (a : RegIdx) (s : State) : Prop :=
  exec (mk (regByte a)) s = .next { s with pc := s.pc + 2 }

/-- The registers an instruction may write, the column "writes" of 10_state.md R23. -/
def writtenRegs : Instr → List Byte
  | .add a _ | .sub a _ | .mul a _ | .div a _ | .mod a _ => [a]
  | .and a _ | .or a _ | .xor a _ | .shl a _ | .shr a _ => [a]
  | .inc a | .dec a | .not a => [a]
  | .push _ | .call _ | .ret => [7]
  | .pop a => [a, 7]
  | .ldi a _ | .ld a _ => [a]
  | .cmp _ _ | .jmp _ | .jeq _ | .jne _ | .jgt _ | .jlt _ | .jle _ | .jge _ => []
  | .st _ _ | .prn _ | .pra _ | .nop | .hlt | .int _ | .iret => []

end Sys2Proof.Claims

open Sys2Proof.Claims

/-! ## Reset and memory -/

/-- 10_state.md section 6 (R36): memory all zero and R7 = 0xF4 are the source's. R0..R6, `pc`, the flags, the
halt flag, the latch and the log are the spec's decisions D3 to D6. -/
def Obligations.ResetLeavesTheListedValues : Prop :=
  (∀ r : RegIdx, State.reset.reg r = if r = 7 then 0xF4 else 0x00) ∧
    (∀ c : Byte, State.reset.load c = 0x00) ∧
    State.reset.pc = 0 ∧ State.reset.fl = 0x00 ∧ State.reset.halt = false ∧
    State.reset.fault = none ∧ State.reset.out = []

/-- R53: a write replaces one cell by v and changes nothing else; so after any sequence of writes a read
gives the latest write to that address, or what was there before. -/
def Obligations.LatestWriteIsRead : Prop :=
  ∀ (s : State) (ws : List (Byte × Byte)) (c : Byte),
    let t := ws.foldl (fun u w => u.store w.1 w.2) s
    (t.load c = match ws.reverse.find? (fun w => w.1 == c) with
      | some w => w.2
      | none => s.load c) ∧
    t = { s with mem := t.mem }

/-- 70_reset_and_hazards.md section 3 (R204): the image at consecutive cells from address 0; the cells past it
and all other state are as they were. The host's window for it is MovesKeepToTheirWindows. -/
def Obligations.LoadedImageStandsFromZero : Prop :=
  ∀ (s : State) (image : List Byte), image.length ≤ 256 →
    BytesAt (loadImage image s) 0 image ∧
    (∀ c : Byte, image.length ≤ c.toNat → (loadImage image s).load c = s.load c) ∧
    loadImage image s = { s with mem := (loadImage image s).mem }

/-! ## ALU -/

/-- R110, R112, R117, R118, R119. -/
def Obligations.AddMulAndOrXorResults : Prop :=
  (∀ a b, encode (.add a b) = [0xA0, a, b]) ∧ BinaryResult .add (fun u v => (u + v) % 256) ∧
  (∀ a b, encode (.mul a b) = [0xA2, a, b]) ∧ BinaryResult .mul (fun u v => (u * v) % 256) ∧
  (∀ a b, encode (.and a b) = [0xA8, a, b]) ∧ BinaryResult .and (fun u v => u &&& v) ∧
  (∀ a b, encode (.or a b) = [0xAA, a, b]) ∧ BinaryResult .or (fun u v => u ||| v) ∧
  (∀ a b, encode (.xor a b) = [0xAB, a, b]) ∧ BinaryResult .xor (fun u v => u ^^^ v)

/-- 41_alu.md sections 2 and 4 (R111, R121, R122), with the operand roles of the spec's decision D12 and the
whole byte as shift count of D29. -/
def Obligations.SubShlShrResults : Prop :=
  BinaryResult .sub (fun u v => (((u : Int) - (v : Int)) % 256).toNat) ∧
  BinaryResult .shl (fun u v => (u * 2 ^ v) % 256) ∧
  BinaryResult .shr (fun u v => u / 2 ^ v)

/-- 41_alu.md sections 1 and 2 (R113, R114, R124), with the spec's decisions D12 and D13: quotient and
remainder of a nonzero divisor, and the law that ties them. -/
def Obligations.DivModResults : Prop :=
  ∀ (a b : RegIdx) (s : State), s.reg b ≠ 0 →
    ∃ q r, exec (.div (regByte a) (regByte b)) s = .next q ∧
      exec (.mod (regByte a) (regByte b)) s = .next r ∧
      (q.reg a).toNat = (s.reg a).toNat / (s.reg b).toNat ∧
      (r.reg a).toNat = (s.reg a).toNat % (s.reg b).toNat ∧
      (s.reg a).toNat = (s.reg b).toNat * (q.reg a).toNat + (r.reg a).toNat ∧
      (r.reg a).toNat < (s.reg b).toNat ∧
      q.pc = s.pc + 3 ∧ r.pc = s.pc + 3 ∧ Quiet [a] [] s q ∧ Quiet [a] [] s r

/-- 41_alu.md section 2 (R183: raised before the destination is written) and 60_exceptions.md section 3: that
nothing but the latch changes is the spec's decision D18 (log 2), that the condition names `pc` its D23. -/
def Obligations.DivModByZeroRaises : Prop :=
  ∀ (a b : RegIdx) (s : State), s.reg b = 0 →
    exec (.div (regByte a) (regByte b)) s = .next { s with fault := some (.divisionByZero s.pc) } ∧
    exec (.mod (regByte a) (regByte b)) s = .next { s with fault := some (.divisionByZero s.pc) }

/-- R115, R116. -/
def Obligations.IncDecResults : Prop :=
  (∀ a, encode (.inc a) = [0x65, a]) ∧ UnaryResult .inc (fun u => (u + 1) % 256) ∧
  (∀ a, encode (.dec a) = [0x66, a]) ∧ UnaryResult .dec (fun u => (u + 255) % 256)

/-- 41_alu.md section 3 (R120); that NOT is in place is the spec's decision D12. Applied twice it restores
the value. -/
def Obligations.NotComplementsInPlace : Prop :=
  UnaryResult .not (fun u => 255 - u) ∧
  ∀ (a : RegIdx) (s t u : State), exec (.not (regByte a)) s = .next t →
    exec (.not (regByte a)) t = .next u → u.regs = s.regs

/-! ## Compare and jump -/

/-- 42_compare_branch.md section 1 (R130), with the direction of the spec's decision D14 and the bit
positions of D2: CMP writes 1, 2 or 4, whatever the flags register held, and nothing else but `pc`. -/
def Obligations.CmpWritesOneFlag : Prop :=
  ∀ (a b : RegIdx) (s : State), ∃ t, exec (.cmp (regByte a) (regByte b)) s = .next t ∧
    ((s.reg a).toNat = (s.reg b).toNat → t.fl = 0x01) ∧
    ((s.reg a).toNat > (s.reg b).toNat → t.fl = 0x02) ∧
    ((s.reg a).toNat < (s.reg b).toNat → t.fl = 0x04) ∧
    t.pc = s.pc + 3 ∧ t.out = s.out ∧ Untouched [] [] s t

/-- R131. -/
def Obligations.JmpGoesToRegister : Prop :=
  (∀ a, encode (.jmp a) = [0x54, a]) ∧
  ∀ (a : RegIdx) (s : State), ∃ t, exec (.jmp (regByte a)) s = .next t ∧
    t.pc.toNat = (s.reg a).toNat ∧ Quiet [] [] s t

/-- 42_compare_branch.md sections 2 and 3 (R132 to R139), for every value of the flags register, with the
conditions of the spec's decision D15, the bits of D2 and the fall-through distance of D17. -/
def Obligations.ConditionalJumpsTestTheirFlags : Prop :=
  JumpResult .jeq (fun fl => fl.getLsbD 0 = true) ∧
  JumpResult .jne (fun fl => fl.getLsbD 0 = false) ∧
  JumpResult .jgt (fun fl => fl.getLsbD 1 = true) ∧
  JumpResult .jlt (fun fl => fl.getLsbD 2 = true) ∧
  JumpResult .jle (fun fl => fl.getLsbD 2 = true ∨ fl.getLsbD 0 = true) ∧
  JumpResult .jge (fun fl => fl.getLsbD 1 = true ∨ fl.getLsbD 0 = true)

/-- 42_compare_branch.md section 4 (R140, derived by the spec; decisions D14, D15, D17): the outcome of each
jump after a CMP, by how the two registers compare. -/
def Obligations.CompareThenJump : Prop :=
  ∀ (a b c : RegIdx) (s t : State), exec (.cmp (regByte a) (regByte b)) s = .next t →
    Taken .jmp c t ∧
    ((s.reg a).toNat = (s.reg b).toNat →
      Taken .jeq c t ∧ NotTaken .jne c t ∧ NotTaken .jgt c t ∧ NotTaken .jlt c t ∧
        Taken .jle c t ∧ Taken .jge c t) ∧
    ((s.reg a).toNat > (s.reg b).toNat →
      NotTaken .jeq c t ∧ Taken .jne c t ∧ Taken .jgt c t ∧ NotTaken .jlt c t ∧
        NotTaken .jle c t ∧ Taken .jge c t) ∧
    ((s.reg a).toNat < (s.reg b).toNat →
      NotTaken .jeq c t ∧ Taken .jne c t ∧ NotTaken .jgt c t ∧ Taken .jlt c t ∧
        Taken .jle c t ∧ NotTaken .jge c t)

/-! ## Stack and linkage -/

/-- 43_stack_call.md section 2 (R145): the byte stored is the register's, and with R7 as the operand it is
the decremented stack pointer (the spec's decision D24). -/
def Obligations.PushStoresBelowTop : Prop :=
  ∀ (a : RegIdx) (s : State), ∃ t, exec (.push (regByte a)) s = .next t ∧
    t.sp.toNat = (s.sp.toNat + 255) % 256 ∧
    (a ≠ 7 → t.load t.sp = s.reg a) ∧ (a = 7 → t.load t.sp = t.sp) ∧
    t.pc = s.pc + 2 ∧ Quiet [7] [s.spDec.sp] s t ∧ t.sp = s.spDec.sp

/-- 43_stack_call.md section 2 (R146): the register gets the byte on top; with R7 as the operand it is that
byte plus 1 (the spec's decision D24). No memory cell changes. -/
def Obligations.PopLoadsTop : Prop :=
  ∀ (a : RegIdx) (s : State), ∃ t, exec (.pop (regByte a)) s = .next t ∧
    (a ≠ 7 → t.reg a = s.load s.sp ∧ t.sp.toNat = (s.sp.toNat + 1) % 256) ∧
    (a = 7 → t.sp.toNat = ((s.load s.sp).toNat + 1) % 256) ∧
    t.pc = s.pc + 2 ∧ Quiet [a, 7] [] s t

/-- 43_stack_call.md sections 1 to 3 (R152): PUSH and CALL step the pointer down and POP and RET up, modulo
256, at both ends; a push writes the cell at the new pointer and a pop reads the cell at the old one, 255
included; and no stack instruction raises for a stack address. What PUSH R7 stores is the spec's
decision D24, CALL's bound and the byte it pushes D19, and that the one condition left is InvalidRegister
D10 (log 8). POP R7 is PopLoadsTop's. -/
def Obligations.StackPointerWrapsAndNeverRaises : Prop :=
  (∀ (a : RegIdx) (s : State), ∃ t, exec (.push (regByte a)) s = .next t ∧ t.fault = s.fault ∧
    t.sp.toNat = (s.sp.toNat + 255) % 256 ∧
    (s.sp = 0 → t.sp = 255 ∧ t.load 255 = if a = 7 then 255 else s.reg a)) ∧
  (∀ (a : RegIdx) (s : State), a ≠ 7 → ∃ t, exec (.pop (regByte a)) s = .next t ∧
    t.fault = s.fault ∧ t.sp.toNat = (s.sp.toNat + 1) % 256 ∧
    (s.sp = 255 → t.sp = 0 ∧ t.reg a = s.load 255)) ∧
  (∀ s : State, ∃ t, exec .ret s = .next t ∧ t.fault = s.fault ∧
    t.sp.toNat = (s.sp.toNat + 1) % 256 ∧
    (s.sp = 255 → t.sp = 0 ∧ t.pc.toNat = (s.load 255).toNat)) ∧
  (∀ (a : RegIdx) (s : State), s.pc.toNat + 2 ≤ 255 → ∃ t,
    exec (.call (regByte a)) s = .next t ∧ t.fault = s.fault ∧
    t.sp.toNat = (s.sp.toNat + 255) % 256 ∧ (s.sp = 0 → t.sp = 255 ∧
      (t.load 255).toNat = s.pc.toNat + 2)) ∧
  (∀ (a : Byte) (i : Instr) (s t : State), i = .push a ∨ i = .pop a ∨ i = .ret →
    exec i s = .next t → t.fault = s.fault ∨ t.fault = some (.invalidRegister a s.pc))

/-- 43_stack_call.md section 3 (R147), at a return address inside memory (the spec's decision D19): the
return address is pushed as one byte and `pc` takes the register's value, read after the push when the
register is R7 (D24). -/
def Obligations.CallPushesReturnAddress : Prop :=
  ∀ (a : RegIdx) (s : State), s.pc.toNat + 2 ≤ 255 →
    ∃ t, exec (.call (regByte a)) s = .next t ∧
      t.sp = s.spDec.sp ∧ t.sp.toNat = (s.sp.toNat + 255) % 256 ∧
      (t.load t.sp).toNat = s.pc.toNat + 2 ∧
      (a ≠ 7 → t.pc.toNat = (s.reg a).toNat) ∧ (a = 7 → t.pc.toNat = t.sp.toNat) ∧
      Quiet [7] [s.spDec.sp] s t

/-- 43_stack_call.md section 3 (R147): a CALL whose return address is above 255 raises before anything is
written (the spec's decision D19); standing at 254 it reports address 256. -/
def Obligations.CallAtTopRaises : Prop :=
  ∀ (a : RegIdx) (s : State), s.pc.toNat + 2 > 255 →
    exec (.call (regByte a)) s
      = .next { s with fault := some (.addressOutOfRange (s.pc.toNat + 2) s.pc) } ∧
    (s.pc = 254 → s.Running → BytesAt s 254 [0x50, regByte a] →
      step s = .next { s with fault := some (.addressOutOfRange 256 254) })

/-- R148: the last clause is its "PUSH Ra followed by RET is an indirect jump". -/
def Obligations.RetPopsProgramCounter : Prop :=
  encode .ret = [0x11] ∧
  (∀ s : State, ∃ t, exec .ret s = .next t ∧ t.pc.toNat = (s.load s.sp).toNat ∧
    t.sp.toNat = (s.sp.toNat + 1) % 256 ∧ Quiet [7] [] s t) ∧
  ∀ (a : RegIdx) (s t : State), a ≠ 7 → exec (.push (regByte a)) s = .next t →
    ∃ u, exec .ret t = .next u ∧ u.pc.toNat = (s.reg a).toNat ∧ u.regs = s.regs

/-- 43_stack_call.md section 3 (R149 (a), derived by the spec): PUSH then POP copies the register, restores
the stack pointer, and leaves every other register and every memory cell but one as they were. -/
def Obligations.PushPopCopies : Prop :=
  ∀ (a b : RegIdx) (s t u : State), a ≠ 7 → b ≠ 7 →
    exec (.push (regByte a)) s = .next t → exec (.pop (regByte b)) t = .next u →
    u.reg b = s.reg a ∧ u.sp = s.sp ∧ u.load t.sp = s.reg a ∧ u.pc = s.pc + 4 ∧
      Quiet [b] [t.sp] s u

/-- 43_stack_call.md section 3 (R149 (b), derived by the spec; decision D19): a CALL at p <= 253 and a RET at its
target are two steps that end at p + 2 with every register as before. -/
def Obligations.CallRetResumesAfterCall : Prop :=
  ∀ (a : RegIdx) (s t : State), s.Running → s.pc.toNat ≤ 253 →
    BytesAt s s.pc.toNat [0x50, regByte a] → step s = .next t → OpcodeAt t 0x11 →
    ∃ u, step t = .next u ∧ u.pc.toNat = s.pc.toNat + 2 ∧ u.regs = s.regs ∧
      (u.load t.sp).toNat = s.pc.toNat + 2 ∧ Quiet [] [t.sp] s u

/-- 43_stack_call.md section 4 (R150, R151): INT and IRET do nothing but raise UnknownOpcode (the spec's
decision D11), at the lookup: whatever the operand and wherever in memory the byte stands. -/
def Obligations.IntIretRaiseUnknownOpcode : Prop :=
  (∀ (a : Byte) (s : State),
    exec (.int a) s = .next { s with fault := some (.unknownOpcode 0x52 s.pc) }) ∧
  (∀ s : State, exec .iret s = .next { s with fault := some (.unknownOpcode 0x13 s.pc) }) ∧
  (∀ (op : Byte) (s : State), op = 0x52 ∨ op = 0x13 → s.Running → OpcodeAt s op →
    step s = .next { s with fault := some (.unknownOpcode op s.pc) })

/-! ## Load immediate, load, store, console, NOP, HLT -/

/-- R160: the immediate is used whole, whatever its value. -/
def Obligations.LdiLoadsImmediate : Prop :=
  (∀ a imm, encode (.ldi a imm) = [0x82, a, imm]) ∧
  ∀ (a : RegIdx) (imm : Byte) (s : State), ∃ t, exec (.ldi (regByte a) imm) s = .next t ∧
    t.reg a = imm ∧ t.pc = s.pc + 3 ∧ Quiet [a] [] s t

/-- 44_misc.md section 1 (R161, R162), with the operand roles of the spec's decision D16: LD reads the cell
`x[b]` into `x[a]`; ST writes `x[b]` to the cell `x[a]` and to no other. -/
def Obligations.LoadAndStoreThroughRegister : Prop :=
  (∀ (a b : RegIdx) (s : State), ∃ t, exec (.ld (regByte a) (regByte b)) s = .next t ∧
    t.reg a = s.load (s.reg b) ∧ t.pc = s.pc + 3 ∧ Quiet [a] [] s t) ∧
  (∀ (a b : RegIdx) (s : State), ∃ t, exec (.st (regByte a) (regByte b)) s = .next t ∧
    t.load (s.reg a) = s.reg b ∧ t.pc = s.pc + 3 ∧ Quiet [] [s.reg a] s t)

/-- R163, R164: one record is appended, and nothing else but `pc` changes; PRN's record stands for the value
in decimal, without leading zeros, and a newline, PRA's for the one character with that code point. -/
def Obligations.PrintAppendsOneRecord : Prop :=
  (∀ a, encode (.prn a) = [0x47, a]) ∧ (∀ a, encode (.pra a) = [0x48, a]) ∧
  (∀ (a : RegIdx) (s : State), ∃ t, exec (.prn (regByte a)) s = .next t ∧
    t.out = s.out ++ [⟨.prn, s.reg a⟩] ∧ t.pc = s.pc + 2 ∧ t.fl = s.fl ∧ Untouched [] [] s t) ∧
  (∀ (a : RegIdx) (s : State), ∃ t, exec (.pra (regByte a)) s = .next t ∧
    t.out = s.out ++ [⟨.pra, s.reg a⟩] ∧ t.pc = s.pc + 2 ∧ t.fl = s.fl ∧ Untouched [] [] s t) ∧
  (∀ v : Byte, ∃ ds : List Nat, (∀ d ∈ ds, d < 10) ∧ ds ≠ [] ∧
    (1 < ds.length → ds.head? ≠ some 0) ∧ ds.foldl (fun n d => 10 * n + d) 0 = v.toNat ∧
    renderRecord ⟨.prn, v⟩ = ds.map (fun d => Char.ofNat (48 + d)) ++ [Char.ofNat 10]) ∧
  (∀ v : Byte, renderRecord ⟨.pra, v⟩ = [Char.ofNat v.toNat] ∧ (Char.ofNat v.toNat).toNat = v.toNat)

/-- 70_reset_and_hazards.md section 3 (R207, the spec's decision D20): on a byte stream a record of code points
below 128 is its characters, one byte each; the bytes of a PRA of 128..255 are `CONSOLE_ENCODING`'s. The
statement holds for every value of that parameter. -/
def Obligations.AsciiRecordsAreTheirBytes : Prop :=
  (∀ v : Byte, (recordBytes ⟨.prn, v⟩).map (fun c => Char.ofNat c.toNat) = renderRecord ⟨.prn, v⟩ ∧
    ∀ c ∈ recordBytes ⟨.prn, v⟩, c.toNat < 128) ∧
  (∀ v : Byte, v.toNat < 128 → recordBytes ⟨.pra, v⟩ = [v]) ∧
  (∀ v : Byte, 128 ≤ v.toNat → recordBytes ⟨.pra, v⟩ = Config.consoleEncoding v)

/-- R165, R166: NOP only advances `pc`; HLT sets the halt flag and advances `pc`, at address 255 too; the
halted core takes no further step and stays halted. -/
def Obligations.NopAndHlt : Prop :=
  encode .nop = [0x00] ∧ encode .hlt = [0x01] ∧
  (∀ s : State, exec .nop s = .next { s with pc := s.pc + 1 }) ∧
  (∀ s : State, exec .hlt s = .next { s with halt := true, pc := s.pc + 1 }) ∧
  (∀ s t : State, exec .hlt s = .next t → (∀ u, step t ≠ .next u) ∧ ∀ n, run n t = t)

/-! ## The step -/

/-- 40_control_unit.md section 1 (R90, with the spec's decisions D8, D9 and D10 for what stands before the
handler): when the bytes fetched decode to an instruction, the step of a running core is that
instruction; nothing is added around it. -/
def Obligations.StepRunsDecodedInstruction : Prop :=
  ∀ (s : State) (i : Instr) (rest : List Byte), s.Running →
    decode (fetchBytes s) = .ok (i, rest) → step s = exec i s

/-- 40_control_unit.md section 1 (R90, R94): the same from the bytes in memory. Wherever the encoding of an
instruction stands at `pc`, all of it inside memory, the step of a running core runs that instruction. -/
def Obligations.StepRunsEncodedBytesAtPc : Prop :=
  ∀ (s : State) (i : Instr), s.Running → BytesAt s s.pc.toNat (encode i) → step s = exec i s

/-- 60_exceptions.md section 1 (R181) and 40_control_unit.md sections 1 and 2: an opcode byte that is none of the
32 functioning ones raises UnknownOpcode with the byte and its address, before anything else is read, and
a functioning one never does. The bytes are the spec's decision D1, the lookup before the operand range
D9, INT and IRET among the unknown D11 (log 8), that nothing but the latch changes D18 (log 2). -/
def Obligations.UnknownOpcodeDependsOnByteAlone : Prop :=
  ∀ (s : State) (op : Byte), s.Running → OpcodeAt s op →
    (op ∉ functioningOpcodes →
      step s = .next { s with fault := some (.unknownOpcode op s.pc) }) ∧
    (op ∈ functioningOpcodes →
      ∃ t, step s = .next t ∧ ∀ byte addr, t.fault ≠ some (.unknownOpcode byte addr))

/-- 40_control_unit.md sections 1 and 2 (R91, R94, R99): the range check on `pc` and, for a functioning opcode,
the range check on its operand bytes, which comes before the register check (the spec's decisions D7,
D8, D9). -/
def Obligations.FetchOutOfRangeRaises : Prop :=
  (∀ s : State, s.Running → s.pc.toNat > 255 →
    step s = .next { s with fault := some (.addressOutOfRange s.pc.toNat s.pc) }) ∧
  (∀ (s : State) (op : Byte), s.Running → OpcodeAt s op → op ∈ functioningOpcodes →
    s.pc.toNat + opN op > 255 →
    step s = .next { s with fault := some (.addressOutOfRange 256 s.pc) })

/-- 40_control_unit.md sections 1 and 2 (R96, R99; the spec's decision D10): an instruction with a
register-index operand above 7 raises InvalidRegister for the first such operand, before its handler
runs, and an instruction is ill formed exactly when it has one. -/
def Obligations.InvalidOperandRaises : Prop :=
  ∀ (i : Instr) (s : State),
    (∀ v, i.regOperands.find? (fun b => decide (b.toNat > 7)) = some v →
      exec i s = .next { s with fault := some (.invalidRegister v s.pc) }) ∧
    (i.wf = false ↔ ∃ v, i.regOperands.find? (fun b => decide (b.toNat > 7)) = some v)

/-- 40_control_unit.md section 2 (R101; the spec's decision D26): a running core always takes a step, and a
stopped one takes none and is left as it is by `run`. -/
def Obligations.ExactlyRunningCoresStep : Prop :=
  ∀ s : State, (s.Running → ∃ t, step s = .next t) ∧
    (¬ s.Running → (∃ f, step s = .fault f) ∧ ∀ n, run n s = s)

/-- 40_control_unit.md section 2 and 60_exceptions.md section 3 (R100, R187; the spec's decision D18): a step
that raises changes nothing but the fault latch. -/
def Obligations.RaisingStepChangesOnlyLatch : Prop :=
  ∀ s t : State, step s = .next t → t.fault ≠ none → Raised s t

/-! ## What no other instruction does -/

/-- 10_state.md section 1 (R23, derived by the spec; the roles of decisions D12 and D16): an instruction changes
no register but those its row of the table lists. -/
def Obligations.OnlyListedRegistersChange : Prop :=
  ∀ (i : Instr) (s t : State) (r : RegIdx), exec i s = .next t → t.reg r ≠ s.reg r →
    regByte r ∈ writtenRegs i

/-- 10_state.md section 3 (R29): CMP is the only instruction that changes the flags register. -/
def Obligations.OnlyCmpChangesFlags : Prop :=
  ∀ (i : Instr) (s t : State), exec i s = .next t → t.fl ≠ s.fl → ∃ a b, i = .cmp a b

/-- 10_state.md section 4 (R30): HLT is the only instruction that changes the halt flag, and it sets it. -/
def Obligations.OnlyHltChangesHalt : Prop :=
  ∀ (i : Instr) (s t : State), exec i s = .next t → t.halt ≠ s.halt → i = .hlt ∧ t.halt = true

/-- 20_memory.md section 1 (R51, derived by the spec; ST's roles are decision D16): only ST, PUSH and CALL
change memory, ST the cell its address register names, PUSH and CALL the cell below the stack
pointer, and no other byte. -/
def Obligations.OnlyStorePushCallChangeMemory : Prop :=
  ∀ (i : Instr) (s t : State) (c : Byte), exec i s = .next t → t.load c ≠ s.load c →
    (∃ a b, i = .st (regByte a) (regByte b) ∧ c = s.reg a) ∨
    (∃ a, (i = .push (regByte a) ∨ i = .call (regByte a)) ∧ c = s.spDec.sp)

/-- 10_state.md section 5 (R34; the log is the spec's decision D20): only PRN and PRA change the console log,
by one record of their own kind and their register's value at its end. -/
def Obligations.OnlyPrintExtendsLog : Prop :=
  ∀ (i : Instr) (s t : State), exec i s = .next t → t.out ≠ s.out →
    ∃ a, (i = .prn (regByte a) ∧ t.out = s.out ++ [⟨.prn, s.reg a⟩]) ∨
      (i = .pra (regByte a) ∧ t.out = s.out ++ [⟨.pra, s.reg a⟩])

/-- 40_control_unit.md section 1 (R98, derived by the spec from R90 step 9): an instruction whose opcode has the
sets-PC bit clear either raises, and nothing but the latch changes, or `pc` advances by its length. -/
def Obligations.DefaultAdvanceIsLength : Prop :=
  ∀ (i : Instr) (s t : State), opP i.opcode = false → exec i s = .next t →
    Raised s t ∨ t.pc = s.pc + BitVec.ofNat 9 (1 + opN i.opcode)

/-- 20_memory.md section 5 (R60, derived by the spec; ST's roles are decision D16): a store to the cell after
the ST is what the very next step fetches as its opcode. -/
def Obligations.StoreIsFetchedByNextStep : Prop :=
  ∀ (a b : RegIdx) (s : State), s.Running → BytesAt s s.pc.toNat [0x84, regByte a, regByte b] →
    (s.reg a).toNat = s.pc.toNat + 3 →
    ∃ t, step s = .next t ∧ t.Running ∧ OpcodeAt t (s.reg b) ∧
      (s.reg b ∉ functioningOpcodes →
        step t = .next { t with fault := some (.unknownOpcode (s.reg b) t.pc) }) ∧
      (s.reg b = 0x01 → ∃ u, step t = .next u ∧ u.halt = true)

/-- 10_state.md section 5 (R34, "no instruction reads it"; the log is decision D20): two cores that differ only
in their console logs step alike and append the same records. -/
def Obligations.ConsoleLogIsNeverRead : Prop :=
  ∀ s s' t : State, SameButOut s s' → step s = .next t →
    ∃ t' new, step s' = .next t' ∧ SameButOut t t' ∧
      t.out = s.out ++ new ∧ t'.out = s'.out ++ new

/-! ## Encoding -/

/-- 30_encoding.md sections 1 and 3 (R70, R78; the opcode values are the spec's decision D1): decoding and encoding
agree in both directions, every operand at every value. -/
def Obligations.DecodeAndEncodeAgree : Prop :=
  (∀ (i : Instr) (rest : List Byte), decode (encode i ++ rest) = .ok (i, rest)) ∧
  (∀ (bs rest : List Byte) (i : Instr), decode bs = .ok (i, rest) → encode i ++ rest = bs)

/-- 30_encoding.md section 4 (R80; the opcode values are decision D1): exactly 34 bytes begin an instruction;
each of the 222 others is refused by name whatever follows it, all of 0xC0..0xFF among them. -/
def Obligations.OtherOpcodesAreRefused : Prop :=
  (functioningOpcodes ++ [0x52, 0x13]).Nodup ∧ (functioningOpcodes ++ [0x52, 0x13]).length = 34 ∧
  (∀ op : Byte, opN op = 3 → op ∉ functioningOpcodes ++ [0x52, 0x13]) ∧
  ∀ (op : Byte) (rest : List Byte),
    (op ∈ functioningOpcodes ++ [0x52, 0x13] → ∃ i r, decode (op :: 0 :: 0 :: rest) = .ok (i, r)) ∧
    (op ∉ functioningOpcodes ++ [0x52, 0x13] → decode (op :: rest) = .error (.unknownOpcode op))

/-- 30_encoding.md section 3 (R79, derived by the spec; decision D1): the fields A and P of an instruction's opcode
are set for exactly the fourteen ALU operations and exactly the eleven that write `pc` themselves. -/
def Obligations.OpcodeFieldsNameTheClasses : Prop :=
  ∀ i : Instr,
    (opA i.opcode = true ↔
      (∃ a b, i = .add a b ∨ i = .sub a b ∨ i = .mul a b ∨ i = .div a b ∨ i = .mod a b ∨ i = .cmp a b ∨
        i = .and a b ∨ i = .or a b ∨ i = .xor a b ∨ i = .shl a b ∨ i = .shr a b) ∨
      ∃ a, i = .inc a ∨ i = .dec a ∨ i = .not a) ∧
    (opP i.opcode = true ↔
      i = .ret ∨ i = .iret ∨ ∃ a, i = .call a ∨ i = .int a ∨ i = .jmp a ∨ i = .jeq a ∨ i = .jne a ∨
        i = .jgt a ∨ i = .jlt a ∨ i = .jle a ∨ i = .jge a)

/-- 30_encoding.md section 3 (R78; decision D1): a few words, one of each family, read as the instruction the
table says. -/
def Obligations.TableWordsDecode : Prop :=
  decodeTableWord 24 0b00000001_00000000_10100000 = some (.add 0 1) ∧
  decodeTableWord 16 0b00000100_01100101 = some (.inc 4) ∧
  decodeTableWord 24 0b00000001_00000000_10100111 = some (.cmp 0 1) ∧
  decodeTableWord 16 0b00000010_01010101 = some (.jeq 2) ∧
  decodeTableWord 16 0b00000001_01010000 = some (.call 1) ∧
  decodeTableWord 24 0b00001000_00000000_10000010 = some (.ldi 0 8) ∧
  decodeTableWord 8 0b00000001 = some .hlt

/-! ## Whole-machine statements -/

/-- 10_state.md sections 2 to 4 and 60_exceptions.md section 1 (R25, R29, R39, R180, R208, derived by the spec; the
conditions and the latch are decisions D6 to D11, D18, D19 and D23): every step keeps the invariant. -/
def Obligations.EveryStepKeepsTheInvariant : Prop :=
  ∀ s t : State, CoreInv s → step s = .next t → CoreInv t

/-- 10_state.md section 6 (R36): the reset state, and the reset state with any image loaded, have the
invariant. Its values are decisions D3 to D6 beside the source's two. -/
def Obligations.InvariantHoldsAfterResetAndLoad : Prop :=
  CoreInv State.reset ∧ ∀ image : List Byte, CoreInv (loadImage image State.reset)

/-- 70_reset_and_hazards.md section 3 (R208, derived by the spec): from a running state with the invariant, at
every budget the run is still going, or ended well one past an HLT, or ended badly with `pc` at the
instruction the latch names or at 256. -/
def Obligations.RunEndsWellOrBadly : Prop :=
  ∀ (s : State) (n : Nat), CoreInv s → s.Running →
    (run n s).Running ∨
    ((run n s).EndedWell ∧ ∃ p, (run n s).pc.toNat = p + 1 ∧ Memory.read (run n s).mem p = 0x01) ∨
    ((run n s).EndedBadly ∧ LatchExplained (run n s))

/-- 40_control_unit.md section 2 (R101, decision D26): a run that has stopped stays as it is under any larger
budget, and a budget may be spent in two parts. -/
def Obligations.RunComposesAndSettles : Prop :=
  ∀ (s : State) (m n : Nat), run (m + n) s = run n (run m s) ∧
    (¬ (run m s).Running → run (m + n) s = run m s)

/-- 70_reset_and_hazards.md section 5 (R214, derived by the spec): from a state with the invariant, a run that does
not stop repeats a state, the log apart, and cycles from there. -/
def Obligations.EndlessRunCycles : Prop :=
  ∀ s : State, CoreInv s → (∀ n, (run n s).Running) →
    ∃ i j, i < j ∧ ∀ k, SameButOut (run (i + k) s) (run (j + k) s)

/-! ## The host and the core -/

/-- 70_reset_and_hazards.md sections 1 and 3 (R200, R201, R204 to R206, R212; the spec's decisions D21, D22,
D26): what each move does in each window. Before `run` the host writes memory and starts the core, and
the core takes no step; during the run the core steps and the host has no move but reset; after the stop
the host reads everything, writes nothing, and `run` returns at once. Reset goes at any time. Two
clauses are the model's choice, its DEDUCED readings in log 9: that there is no read before `run` (R206
and R212 only list reads after the stop), and that reset is made during a run too (R200 and D21 say "at
any time", R206 gives the host no move then). -/
def Obligations.MovesKeepToTheirWindows : Prop :=
  ∀ p : Session,
    p.act .reset = .ok { core := State.reset, started := false } ∧
    (p.core.Running → p.started = false →
      (∀ addr v, p.act (.load addr v) = .ok { p with core := p.core.store addr v }) ∧
      p.act .run = .ok { p with started := true } ∧
      ∀ q, p.act .step ≠ .ok q ∧ p.act .read ≠ .ok q) ∧
    (p.core.Running → p.started = true →
      (∃ t, step p.core = .next t ∧ p.act .step = .ok { p with core := t }) ∧
      ∀ m q, m ≠ .reset → m ≠ .step → p.act m ≠ .ok q) ∧
    (¬ p.core.Running →
      hostRead p = .ok p.core ∧ p.act .read = .ok p ∧ p.act .run = .ok p ∧
      ∀ q, p.act .step ≠ .ok q ∧ ∀ addr v, p.act (.load addr v) ≠ .ok q)

/-- 70_reset_and_hazards.md sections 2 and 3 (R203 to R205, derived by the spec): the boot sequence, reset, load,
`run`. The loader's moves leave the loaded image, and as long as the run has not stopped its n steps
leave what the loop `run` gives. -/
def Obligations.BootSequenceRunsTheImage : Prop :=
  ∀ (image : List Byte) (n : Nat), image.length ≤ 256 →
    Session.reset.acts (loadMoves 0 image)
      = .ok { core := loadImage image State.reset, started := false } ∧
    ((∀ k < n, (run k (loadImage image State.reset)).Running) →
      Session.reset.acts (loadMoves 0 image ++ .run :: List.replicate n .step)
        = .ok { core := run n (loadImage image State.reset), started := true })

/-- 70_reset_and_hazards.md sections 3 and 4 (R206, R211; decision D22): from `run` to the next reset nothing but
the core's own steps changes the core: no move of the host interleaves with them. -/
def Obligations.OnlyStepsBetweenRunAndReset : Prop :=
  ∀ (ms : List Move) (p q : Session), p.started = true → .reset ∉ ms → p.acts ms = .ok q →
    q.started = true ∧ ∃ n, n ≤ ms.count .step ∧ q.core = run n p.core

/-- 70_reset_and_hazards.md sections 1, 3 and 4 (R200 to R206, R211; decisions D21, D22): whatever moves the two
agents make from reset, each in its window, the core is in the state of a run from the reset state with
bytes written to memory before it, and of no step before `run` is called; and it has the invariant. That
reset may be among the moves of a run is the model's choice, a DEDUCED reading in log 9. -/
def Obligations.SessionsAreRunsOfWrittenResets : Prop :=
  ∀ (ms : List Move) (p : Session), Session.reset.acts ms = .ok p →
    (∃ (ws : List (Byte × Byte)) (n : Nat),
      p.core = run n (ws.foldl (fun s w => s.store w.1 w.2) State.reset) ∧
        (p.started = false → n = 0)) ∧
    CoreInv p.core

/-- The same for one move from any session, not only from reset: every move that is made, of the host or of
the core, keeps `SessionInv`. That reset is made during a run too is the model's choice, a DEDUCED reading
in log 9. -/
def Obligations.EveryMoveKeepsTheSessionInvariant : Prop :=
  ∀ (m : Move) (p q : Session), SessionInv p → p.act m = .ok q → SessionInv q

/-- 70_reset_and_hazards.md section 1 (R200, R201) with the reset values of decisions D3 to D6: the session after
reset has `SessionInv`. -/
def Obligations.SessionInvariantHoldsAtReset : Prop := SessionInv Session.reset
end

