-- ==== Sys2Proof/Laws/PerInstr.lean ====
section
/-! SUPPORT. Per-instruction families. OpcodeFields: the opcode byte's own fields N and A say of the
instruction what 30_encoding.md R71 to R74 say they do. -/

namespace Sys2Proof.Laws

/-- An instruction is `1 + N` bytes long (R72), every register operand is one of its N operand bytes, and
an ALU instruction's operand bytes are all register indices (R73). -/
def OpcodeFields.Statement (i : Instr) : Prop :=
  i.length = 1 + opN i.opcode ∧ i.regOperands.length ≤ opN i.opcode ∧
    (opA i.opcode = true → i.regOperands.length = opN i.opcode)

/-- The three facts, from the encoding and the number of register operands. -/
theorem OpcodeFields.of_encode {i : Instr} (op : Byte) (n r : Nat) {bs : List Byte}
    (he : encode i = op :: bs) (hb : bs.length = n) (hr : i.regOperands.length = r)
    (hn : opN op = n) (hle : r ≤ n) (ha : opA op = true → r = n) : OpcodeFields.Statement i := by
  have ho : i.opcode = op := by simp [Instr.opcode, he]
  refine ⟨?_, ?_, ?_⟩
  · simp [Instr.length, he, ho, hb, hn]
    omega
  · rw [hr, ho, hn]; exact hle
  · rw [hr, ho, hn]; exact ha

theorem OpcodeFields.nop : OpcodeFields.Statement .nop :=
  OpcodeFields.of_encode 0b00000000 0 0 rfl rfl rfl (by decide) (by decide) (by decide)
theorem OpcodeFields.hlt : OpcodeFields.Statement .hlt :=
  OpcodeFields.of_encode 0b00000001 0 0 rfl rfl rfl (by decide) (by decide) (by decide)
theorem OpcodeFields.ret : OpcodeFields.Statement .ret :=
  OpcodeFields.of_encode 0b00010001 0 0 rfl rfl rfl (by decide) (by decide) (by decide)
theorem OpcodeFields.iret : OpcodeFields.Statement .iret :=
  OpcodeFields.of_encode 0b00010011 0 0 rfl rfl rfl (by decide) (by decide) (by decide)
theorem OpcodeFields.push (a : Byte) : OpcodeFields.Statement (.push a) :=
  OpcodeFields.of_encode 0b01000101 1 1 rfl rfl rfl (by decide) (by decide) (by decide)
theorem OpcodeFields.pop (a : Byte) : OpcodeFields.Statement (.pop a) :=
  OpcodeFields.of_encode 0b01000110 1 1 rfl rfl rfl (by decide) (by decide) (by decide)
theorem OpcodeFields.prn (a : Byte) : OpcodeFields.Statement (.prn a) :=
  OpcodeFields.of_encode 0b01000111 1 1 rfl rfl rfl (by decide) (by decide) (by decide)
theorem OpcodeFields.pra (a : Byte) : OpcodeFields.Statement (.pra a) :=
  OpcodeFields.of_encode 0b01001000 1 1 rfl rfl rfl (by decide) (by decide) (by decide)
theorem OpcodeFields.call (a : Byte) : OpcodeFields.Statement (.call a) :=
  OpcodeFields.of_encode 0b01010000 1 1 rfl rfl rfl (by decide) (by decide) (by decide)
theorem OpcodeFields.int (a : Byte) : OpcodeFields.Statement (.int a) :=
  OpcodeFields.of_encode 0b01010010 1 0 rfl rfl rfl (by decide) (by decide) (by decide)
theorem OpcodeFields.jmp (a : Byte) : OpcodeFields.Statement (.jmp a) :=
  OpcodeFields.of_encode 0b01010100 1 1 rfl rfl rfl (by decide) (by decide) (by decide)
theorem OpcodeFields.jeq (a : Byte) : OpcodeFields.Statement (.jeq a) :=
  OpcodeFields.of_encode 0b01010101 1 1 rfl rfl rfl (by decide) (by decide) (by decide)
theorem OpcodeFields.jne (a : Byte) : OpcodeFields.Statement (.jne a) :=
  OpcodeFields.of_encode 0b01010110 1 1 rfl rfl rfl (by decide) (by decide) (by decide)
theorem OpcodeFields.jgt (a : Byte) : OpcodeFields.Statement (.jgt a) :=
  OpcodeFields.of_encode 0b01010111 1 1 rfl rfl rfl (by decide) (by decide) (by decide)
theorem OpcodeFields.jlt (a : Byte) : OpcodeFields.Statement (.jlt a) :=
  OpcodeFields.of_encode 0b01011000 1 1 rfl rfl rfl (by decide) (by decide) (by decide)
theorem OpcodeFields.jle (a : Byte) : OpcodeFields.Statement (.jle a) :=
  OpcodeFields.of_encode 0b01011001 1 1 rfl rfl rfl (by decide) (by decide) (by decide)
theorem OpcodeFields.jge (a : Byte) : OpcodeFields.Statement (.jge a) :=
  OpcodeFields.of_encode 0b01011010 1 1 rfl rfl rfl (by decide) (by decide) (by decide)
theorem OpcodeFields.inc (a : Byte) : OpcodeFields.Statement (.inc a) :=
  OpcodeFields.of_encode 0b01100101 1 1 rfl rfl rfl (by decide) (by decide) (by decide)
theorem OpcodeFields.dec (a : Byte) : OpcodeFields.Statement (.dec a) :=
  OpcodeFields.of_encode 0b01100110 1 1 rfl rfl rfl (by decide) (by decide) (by decide)
theorem OpcodeFields.not (a : Byte) : OpcodeFields.Statement (.not a) :=
  OpcodeFields.of_encode 0b01101001 1 1 rfl rfl rfl (by decide) (by decide) (by decide)
theorem OpcodeFields.ldi (a imm : Byte) : OpcodeFields.Statement (.ldi a imm) :=
  OpcodeFields.of_encode 0b10000010 2 1 rfl rfl rfl (by decide) (by decide) (by decide)
theorem OpcodeFields.ld (a b : Byte) : OpcodeFields.Statement (.ld a b) :=
  OpcodeFields.of_encode 0b10000011 2 2 rfl rfl rfl (by decide) (by decide) (by decide)
theorem OpcodeFields.st (a b : Byte) : OpcodeFields.Statement (.st a b) :=
  OpcodeFields.of_encode 0b10000100 2 2 rfl rfl rfl (by decide) (by decide) (by decide)
theorem OpcodeFields.add (a b : Byte) : OpcodeFields.Statement (.add a b) :=
  OpcodeFields.of_encode 0b10100000 2 2 rfl rfl rfl (by decide) (by decide) (by decide)
theorem OpcodeFields.sub (a b : Byte) : OpcodeFields.Statement (.sub a b) :=
  OpcodeFields.of_encode 0b10100001 2 2 rfl rfl rfl (by decide) (by decide) (by decide)
theorem OpcodeFields.mul (a b : Byte) : OpcodeFields.Statement (.mul a b) :=
  OpcodeFields.of_encode 0b10100010 2 2 rfl rfl rfl (by decide) (by decide) (by decide)
theorem OpcodeFields.div (a b : Byte) : OpcodeFields.Statement (.div a b) :=
  OpcodeFields.of_encode 0b10100011 2 2 rfl rfl rfl (by decide) (by decide) (by decide)
theorem OpcodeFields.mod (a b : Byte) : OpcodeFields.Statement (.mod a b) :=
  OpcodeFields.of_encode 0b10100100 2 2 rfl rfl rfl (by decide) (by decide) (by decide)
theorem OpcodeFields.cmp (a b : Byte) : OpcodeFields.Statement (.cmp a b) :=
  OpcodeFields.of_encode 0b10100111 2 2 rfl rfl rfl (by decide) (by decide) (by decide)
theorem OpcodeFields.and (a b : Byte) : OpcodeFields.Statement (.and a b) :=
  OpcodeFields.of_encode 0b10101000 2 2 rfl rfl rfl (by decide) (by decide) (by decide)
theorem OpcodeFields.or (a b : Byte) : OpcodeFields.Statement (.or a b) :=
  OpcodeFields.of_encode 0b10101010 2 2 rfl rfl rfl (by decide) (by decide) (by decide)
theorem OpcodeFields.xor (a b : Byte) : OpcodeFields.Statement (.xor a b) :=
  OpcodeFields.of_encode 0b10101011 2 2 rfl rfl rfl (by decide) (by decide) (by decide)
theorem OpcodeFields.shl (a b : Byte) : OpcodeFields.Statement (.shl a b) :=
  OpcodeFields.of_encode 0b10101100 2 2 rfl rfl rfl (by decide) (by decide) (by decide)
theorem OpcodeFields.shr (a b : Byte) : OpcodeFields.Statement (.shr a b) :=
  OpcodeFields.of_encode 0b10101101 2 2 rfl rfl rfl (by decide) (by decide) (by decide)

/-- The family, for every instruction. -/
theorem OpcodeFields.all (i : Instr) : OpcodeFields.Statement i := by
  cases i with
  | nop => exact OpcodeFields.nop
  | hlt => exact OpcodeFields.hlt
  | ret => exact OpcodeFields.ret
  | iret => exact OpcodeFields.iret
  | push a => exact OpcodeFields.push a
  | pop a => exact OpcodeFields.pop a
  | prn a => exact OpcodeFields.prn a
  | pra a => exact OpcodeFields.pra a
  | call a => exact OpcodeFields.call a
  | int a => exact OpcodeFields.int a
  | jmp a => exact OpcodeFields.jmp a
  | jeq a => exact OpcodeFields.jeq a
  | jne a => exact OpcodeFields.jne a
  | jgt a => exact OpcodeFields.jgt a
  | jlt a => exact OpcodeFields.jlt a
  | jle a => exact OpcodeFields.jle a
  | jge a => exact OpcodeFields.jge a
  | inc a => exact OpcodeFields.inc a
  | dec a => exact OpcodeFields.dec a
  | not a => exact OpcodeFields.not a
  | ldi a b => exact OpcodeFields.ldi a b
  | ld a b => exact OpcodeFields.ld a b
  | st a b => exact OpcodeFields.st a b
  | add a b => exact OpcodeFields.add a b
  | sub a b => exact OpcodeFields.sub a b
  | mul a b => exact OpcodeFields.mul a b
  | div a b => exact OpcodeFields.div a b
  | mod a b => exact OpcodeFields.mod a b
  | cmp a b => exact OpcodeFields.cmp a b
  | and a b => exact OpcodeFields.and a b
  | or a b => exact OpcodeFields.or a b
  | xor a b => exact OpcodeFields.xor a b
  | shl a b => exact OpcodeFields.shl a b
  | shr a b => exact OpcodeFields.shr a b

end Sys2Proof.Laws
end

