-- ==== Sys2Proof/Laws/Decode.lean ====
section
/-! SUPPORT. The dispatch table: what a lookup can answer, and that each row is the row the encoder writes. -/

namespace Sys2Proof

/-- A row's opcode is the one the encoder writes for the row's instructions, its format has the operand
count of the opcode's field N (R72), and it is one of the functioning opcodes or reserved (R78, R81). -/
def RowSound (k : Byte) (e : Entry) : Prop :=
  e.operands = opN k ∧
    (match e with
      | .f0 i => encode i = [k]
      | .f1 mk => ∀ a, encode (mk a) = [k, a]
      | .f2 mk => ∀ a b, encode (mk a b) = [k, a, b])

theorem findEntry_mem {rows : List (Byte × Entry)} {op : Byte} {e : Entry}
    (h : findEntry rows op = some e) : (op, e) ∈ rows := by
  induction rows with
  | nil => cases h
  | cons row rows ih =>
    obtain ⟨k, e'⟩ := row
    by_cases hk : op = k
    · simp only [findEntry, hk, if_true, Option.some.injEq] at h
      simp [hk, h]
    · simp only [findEntry, hk, if_false] at h
      exact List.mem_cons_of_mem _ (ih h)

theorem findEntry_eq_none {rows : List (Byte × Entry)} {op : Byte} (h : findEntry rows op = none) :
    op ∉ rows.map (·.1) := by
  induction rows with
  | nil => simp
  | cons row rows ih =>
    obtain ⟨k, e'⟩ := row
    by_cases hk : op = k
    · simp [findEntry, hk] at h
    · simp only [findEntry, hk, if_false] at h
      simpa [hk] using ih h

/-- Every row of the table is sound. -/
theorem dispatchTable_sound : ∀ row ∈ dispatchTable, RowSound row.1 row.2 := by
  simp [dispatchTable, tableF0, tableF1, tableF2, RowSound, Entry.operands, opN, encode]

theorem lookupOp_sound {op : Byte} {e : Entry} (h : lookupOp op = some e) : RowSound op e :=
  dispatchTable_sound _ (findEntry_mem h)

/-- An opcode byte has a row exactly when it is functioning or reserved (R78, R81). -/
theorem lookupOp_isSome (op : Byte) :
    (lookupOp op).isSome = (Machine.functioningOpcodes.contains op || reservedOp op) := by
  revert op; decide

theorem opN_le (op : Byte) : opN op ≤ 3 := by
  have := op.isLt
  unfold opN
  omega

end Sys2Proof
end

