-- ==== Sys2Proof/Laws/State.lean ====
section
/-! SUPPORT. One lemma per field per state update, and what `reg` and `load` see of each update: no later
proof unfolds a record update. -/

namespace Sys2Proof.Machine

variable (s : State)

@[simp] theorem State.setReg_regs (r : RegIdx) (v : Byte) : (s.setReg r v).regs = s.regs.set r v := rfl
@[simp] theorem State.setReg_pc (r : RegIdx) (v : Byte) : (s.setReg r v).pc = s.pc := rfl
@[simp] theorem State.setReg_fl (r : RegIdx) (v : Byte) : (s.setReg r v).fl = s.fl := rfl
@[simp] theorem State.setReg_halt (r : RegIdx) (v : Byte) : (s.setReg r v).halt = s.halt := rfl
@[simp] theorem State.setReg_fault (r : RegIdx) (v : Byte) : (s.setReg r v).fault = s.fault := rfl
@[simp] theorem State.setReg_mem (r : RegIdx) (v : Byte) : (s.setReg r v).mem = s.mem := rfl
@[simp] theorem State.setReg_out (r : RegIdx) (v : Byte) : (s.setReg r v).out = s.out := rfl

@[simp] theorem State.store_regs (c v : Byte) : (s.store c v).regs = s.regs := rfl
@[simp] theorem State.store_pc (c v : Byte) : (s.store c v).pc = s.pc := rfl
@[simp] theorem State.store_fl (c v : Byte) : (s.store c v).fl = s.fl := rfl
@[simp] theorem State.store_halt (c v : Byte) : (s.store c v).halt = s.halt := rfl
@[simp] theorem State.store_fault (c v : Byte) : (s.store c v).fault = s.fault := rfl
@[simp] theorem State.store_mem (c v : Byte) : (s.store c v).mem = Memory.write s.mem c.toNat v := rfl
@[simp] theorem State.store_out (c v : Byte) : (s.store c v).out = s.out := rfl

@[simp] theorem State.setPc_regs (t : PcWord) : (s.setPc t).regs = s.regs := rfl
@[simp] theorem State.setPc_pc (t : PcWord) : (s.setPc t).pc = t := rfl
@[simp] theorem State.setPc_fl (t : PcWord) : (s.setPc t).fl = s.fl := rfl
@[simp] theorem State.setPc_halt (t : PcWord) : (s.setPc t).halt = s.halt := rfl
@[simp] theorem State.setPc_fault (t : PcWord) : (s.setPc t).fault = s.fault := rfl
@[simp] theorem State.setPc_mem (t : PcWord) : (s.setPc t).mem = s.mem := rfl
@[simp] theorem State.setPc_out (t : PcWord) : (s.setPc t).out = s.out := rfl

@[simp] theorem State.advance_regs (n : Nat) : (s.advance n).regs = s.regs := rfl
@[simp] theorem State.advance_pc (n : Nat) : (s.advance n).pc = BitVec.ofNat 9 (s.pc.toNat + n) := rfl
@[simp] theorem State.advance_fl (n : Nat) : (s.advance n).fl = s.fl := rfl
@[simp] theorem State.advance_halt (n : Nat) : (s.advance n).halt = s.halt := rfl
@[simp] theorem State.advance_fault (n : Nat) : (s.advance n).fault = s.fault := rfl
@[simp] theorem State.advance_mem (n : Nat) : (s.advance n).mem = s.mem := rfl
@[simp] theorem State.advance_out (n : Nat) : (s.advance n).out = s.out := rfl

@[simp] theorem State.setFl_regs (v : Byte) : (s.setFl v).regs = s.regs := rfl
@[simp] theorem State.setFl_pc (v : Byte) : (s.setFl v).pc = s.pc := rfl
@[simp] theorem State.setFl_fl (v : Byte) : (s.setFl v).fl = v := rfl
@[simp] theorem State.setFl_halt (v : Byte) : (s.setFl v).halt = s.halt := rfl
@[simp] theorem State.setFl_fault (v : Byte) : (s.setFl v).fault = s.fault := rfl
@[simp] theorem State.setFl_mem (v : Byte) : (s.setFl v).mem = s.mem := rfl
@[simp] theorem State.setFl_out (v : Byte) : (s.setFl v).out = s.out := rfl

@[simp] theorem State.setHalt_regs : (s.setHalt).regs = s.regs := rfl
@[simp] theorem State.setHalt_pc : (s.setHalt).pc = s.pc := rfl
@[simp] theorem State.setHalt_fl : (s.setHalt).fl = s.fl := rfl
@[simp] theorem State.setHalt_halt : (s.setHalt).halt = true := rfl
@[simp] theorem State.setHalt_fault : (s.setHalt).fault = s.fault := rfl
@[simp] theorem State.setHalt_mem : (s.setHalt).mem = s.mem := rfl
@[simp] theorem State.setHalt_out : (s.setHalt).out = s.out := rfl

@[simp] theorem State.emit_regs (k : OutKind) (v : Byte) : (s.emit k v).regs = s.regs := rfl
@[simp] theorem State.emit_pc (k : OutKind) (v : Byte) : (s.emit k v).pc = s.pc := rfl
@[simp] theorem State.emit_fl (k : OutKind) (v : Byte) : (s.emit k v).fl = s.fl := rfl
@[simp] theorem State.emit_halt (k : OutKind) (v : Byte) : (s.emit k v).halt = s.halt := rfl
@[simp] theorem State.emit_fault (k : OutKind) (v : Byte) : (s.emit k v).fault = s.fault := rfl
@[simp] theorem State.emit_mem (k : OutKind) (v : Byte) : (s.emit k v).mem = s.mem := rfl
@[simp] theorem State.emit_out (k : OutKind) (v : Byte) : (s.emit k v).out = s.out ++ [⟨k, v⟩] := rfl

@[simp] theorem State.latch_regs (c : Condition) : (s.latch c).regs = s.regs := rfl
@[simp] theorem State.latch_pc (c : Condition) : (s.latch c).pc = s.pc := rfl
@[simp] theorem State.latch_fl (c : Condition) : (s.latch c).fl = s.fl := rfl
@[simp] theorem State.latch_halt (c : Condition) : (s.latch c).halt = s.halt := rfl
@[simp] theorem State.latch_fault (c : Condition) : (s.latch c).fault = some c := rfl
@[simp] theorem State.latch_mem (c : Condition) : (s.latch c).mem = s.mem := rfl
@[simp] theorem State.latch_out (c : Condition) : (s.latch c).out = s.out := rfl

/-! ## What a register read sees -/

@[simp] theorem State.reg_store (c v : Byte) (q : RegIdx) : (s.store c v).reg q = s.reg q := rfl
@[simp] theorem State.reg_setPc (t : PcWord) (q : RegIdx) : (s.setPc t).reg q = s.reg q := rfl
@[simp] theorem State.reg_advance (n : Nat) (q : RegIdx) : (s.advance n).reg q = s.reg q := rfl
@[simp] theorem State.reg_setFl (v : Byte) (q : RegIdx) : (s.setFl v).reg q = s.reg q := rfl
@[simp] theorem State.reg_setHalt (q : RegIdx) : (s.setHalt).reg q = s.reg q := rfl
@[simp] theorem State.reg_emit (k : OutKind) (v : Byte) (q : RegIdx) : (s.emit k v).reg q = s.reg q := rfl
@[simp] theorem State.reg_latch (c : Condition) (q : RegIdx) : (s.latch c).reg q = s.reg q := rfl

/-- A register read after a register write: the value written, or the old one (R22). -/
theorem State.reg_setReg (r q : RegIdx) (v : Byte) :
    (s.setReg r v).reg q = if q = r then v else s.reg q := by
  simp only [State.reg, State.setReg, Fin.getElem_fin, Vector.getElem_set, Fin.ext_iff, eq_comm]

@[simp] theorem State.reg_setReg_same (r : RegIdx) (v : Byte) : (s.setReg r v).reg r = v := by
  simp [State.reg_setReg]

theorem State.reg_setReg_other {r q : RegIdx} (v : Byte) (h : q ≠ r) :
    (s.setReg r v).reg q = s.reg q := by
  simp [State.reg_setReg, h]

/-! ## What a memory read sees -/

@[simp] theorem State.load_setReg (r : RegIdx) (v : Byte) (c : Byte) : (s.setReg r v).load c = s.load c := rfl
@[simp] theorem State.load_setPc (t : PcWord) (c : Byte) : (s.setPc t).load c = s.load c := rfl
@[simp] theorem State.load_advance (n : Nat) (c : Byte) : (s.advance n).load c = s.load c := rfl
@[simp] theorem State.load_setFl (v : Byte) (c : Byte) : (s.setFl v).load c = s.load c := rfl
@[simp] theorem State.load_setHalt (c : Byte) : (s.setHalt).load c = s.load c := rfl
@[simp] theorem State.load_emit (k : OutKind) (v : Byte) (c : Byte) : (s.emit k v).load c = s.load c := rfl
@[simp] theorem State.load_latch (d : Condition) (c : Byte) : (s.latch d).load c = s.load c := rfl

/-! ## The stack pointer -/

@[simp] theorem State.spDec_pc : s.spDec.pc = s.pc := rfl
@[simp] theorem State.spDec_fl : s.spDec.fl = s.fl := rfl
@[simp] theorem State.spDec_halt : s.spDec.halt = s.halt := rfl
@[simp] theorem State.spDec_fault : s.spDec.fault = s.fault := rfl
@[simp] theorem State.spDec_mem : s.spDec.mem = s.mem := rfl
@[simp] theorem State.spDec_out : s.spDec.out = s.out := rfl
@[simp] theorem State.load_spDec (c : Byte) : s.spDec.load c = s.load c := rfl

@[simp] theorem State.spInc_pc : s.spInc.pc = s.pc := rfl
@[simp] theorem State.spInc_fl : s.spInc.fl = s.fl := rfl
@[simp] theorem State.spInc_halt : s.spInc.halt = s.halt := rfl
@[simp] theorem State.spInc_fault : s.spInc.fault = s.fault := rfl
@[simp] theorem State.spInc_mem : s.spInc.mem = s.mem := rfl
@[simp] theorem State.spInc_out : s.spInc.out = s.out := rfl
@[simp] theorem State.load_spInc (c : Byte) : s.spInc.load c = s.load c := rfl

/-- A push steps the stack pointer down modulo 256 (R152). -/
theorem State.spDec_sp : s.spDec.sp = s.sp - 1 := by
  simp only [State.spDec, State.sp, State.reg_setReg_same]
  apply BitVec.eq_of_toNat_eq
  have h1 : (1 : Byte).toNat = 1 := rfl
  simp only [BitVec.toNat_ofInt, BitVec.toNat_sub, h1]
  omega

/-- A pop steps the stack pointer up modulo 256 (R152). -/
theorem State.spInc_sp : s.spInc.sp = s.sp + 1 := by
  simp only [State.spInc, State.sp, State.reg_setReg_same]
  apply BitVec.eq_of_toNat_eq
  simp

theorem State.reg_spDec (q : RegIdx) :
    s.spDec.reg q = if q = Config.spIndex then s.sp - 1 else s.reg q := by
  by_cases h : q = Config.spIndex
  · simpa [h, State.sp] using s.spDec_sp
  · simp [State.spDec, State.reg_setReg, h]

theorem State.reg_spInc (q : RegIdx) :
    s.spInc.reg q = if q = Config.spIndex then s.sp + 1 else s.reg q := by
  by_cases h : q = Config.spIndex
  · simpa [h, State.sp] using s.spInc_sp
  · simp [State.spInc, State.reg_setReg, h]

/-! ## The program counter -/

/-- The advance, as 9-bit addition. -/
theorem State.advance_pc_add (n : Nat) : (s.advance n).pc = s.pc + BitVec.ofNat 9 n := by
  apply BitVec.eq_of_toNat_eq
  simp

/-- The advance does not wrap from an address that the step's range checks let through (R98). -/
theorem State.advance_pc_toNat {n : Nat} (h : s.pc.toNat + n < 512) :
    (s.advance n).pc.toNat = s.pc.toNat + n := by
  simpa using Nat.mod_eq_of_lt h

@[simp] theorem zext9_toNat (v : Byte) : (zext9 v).toNat = v.toNat := by
  simp [zext9]; omega

/-! ## The status -/

theorem State.status_running : s.status = .running ↔ s.Running := by
  cases hf : s.fault <;> cases hh : s.halt <;> simp [State.status, State.Running, hf, hh]

theorem State.stopped_iff_not_running : s.stopped = true ↔ ¬ s.Running := by
  cases hf : s.fault <;> cases hh : s.halt <;> simp [State.stopped, State.Running, hf, hh]

end Sys2Proof.Machine
end

