-- ==== Sys2Proof/Laws/Memory.lean ====
section
/-! SUPPORT. Memory: a read after a write, on any list; the canonical form is kept by every memory
operation; memories in canonical form that read alike are equal. -/

namespace Sys2Proof.Machine

theorem Memory.read_erase_same (m : Memory) (a : Nat) :
    Memory.read (Memory.erase m a) a = Config.cellReset := by
  induction m with
  | nil => rfl
  | cons c m ih => by_cases h : c.1 = a <;> simp [Memory.erase, Memory.read, h, ih]

theorem Memory.read_erase_other (m : Memory) {a b : Nat} (hb : b ≠ a) :
    Memory.read (Memory.erase m a) b = Memory.read m b := by
  induction m with
  | nil => rfl
  | cons c m ih =>
    by_cases h : c.1 = a
    · have : a ≠ b := fun e => hb e.symm
      simp [Memory.erase, Memory.read, h, ih, this]
    · simp [Memory.erase, Memory.read, h, ih]

theorem Memory.read_insert_other (m : Memory) {a b : Nat} (v : Byte) (hb : b ≠ a) :
    Memory.read (Memory.insert m a v) b = Memory.read m b := by
  have hab : a ≠ b := fun e => hb e.symm
  induction m with
  | nil => simp [Memory.insert, Memory.read, hab]
  | cons c m ih =>
    by_cases h : a < c.1 <;> simp [Memory.insert, Memory.read, h, ih, hab]

theorem Memory.read_insert_erase (m : Memory) (a : Nat) (v : Byte) :
    Memory.read (Memory.insert (Memory.erase m a) a v) a = v := by
  induction m with
  | nil => simp [Memory.erase, Memory.insert, Memory.read]
  | cons c m ih =>
    by_cases h : c.1 = a
    · simpa [Memory.erase, h] using ih
    · by_cases hl : a < c.1 <;> simp [Memory.erase, Memory.insert, Memory.read, h, hl, ih]

/-- `MemWrite` then `MemRead` of the same cell (R53). -/
@[simp] theorem Memory.read_write_same (m : Memory) (a : Nat) (v : Byte) :
    Memory.read (Memory.write m a v) a = v := by
  by_cases h : v = Config.cellReset
  · simp [Memory.write, h, Memory.read_erase_same]
  · simp [Memory.write, h, Memory.read_insert_erase]

/-- `MemWrite` changes no other cell (R53). -/
theorem Memory.read_write_other (m : Memory) {a b : Nat} (v : Byte) (hb : b ≠ a) :
    Memory.read (Memory.write m a v) b = Memory.read m b := by
  by_cases h : v = Config.cellReset <;>
    simp [Memory.write, h, Memory.read_erase_other m hb, Memory.read_insert_other _ v hb]

theorem Memory.read_write (m : Memory) (a b : Nat) (v : Byte) :
    Memory.read (Memory.write m a v) b = if b = a then v else Memory.read m b := by
  by_cases h : b = a
  · simp [h]
  · simp [h, Memory.read_write_other m v h]

/-- What a data read sees of a store (R53). -/
theorem State.load_store (s : State) (c d v : Byte) :
    (s.store c v).load d = if d = c then v else s.load d := by
  simp only [State.load, State.store_mem, Memory.read_write, BitVec.toNat_inj]

@[simp] theorem State.load_store_same (s : State) (c v : Byte) : (s.store c v).load c = v := by
  simp [State.load_store]

/-! ## The canonical form -/

theorem Memory.wfFrom_cons {lo k : Nat} {v : Byte} {m : Memory} :
    Memory.wfFrom lo ((k, v) :: m) = true ↔
      lo ≤ k ∧ k < 256 ∧ v ≠ Config.cellReset ∧ Memory.wfFrom (k + 1) m = true := by
  simp only [Memory.wfFrom, Bool.and_eq_true, decide_eq_true_eq, and_assoc]
  exact Iff.rfl

theorem Memory.wfFrom_mono {lo lo' : Nat} (hle : lo' ≤ lo) {m : Memory}
    (h : Memory.wfFrom lo m = true) : Memory.wfFrom lo' m = true := by
  cases m with
  | nil => rfl
  | cons c m =>
    rw [Memory.wfFrom_cons] at h ⊢
    exact ⟨hle.trans h.1, h.2⟩

theorem Memory.wfFrom_erase (a : Nat) {m : Memory} {lo : Nat} (h : Memory.wfFrom lo m = true) :
    Memory.wfFrom lo (Memory.erase m a) = true := by
  induction m generalizing lo with
  | nil => exact h
  | cons c m ih =>
    obtain ⟨k, w⟩ := c
    obtain ⟨h1, h2, h3, h4⟩ := Memory.wfFrom_cons.1 h
    by_cases hk : k = a
    · simp only [Memory.erase, hk, if_true]
      exact ih (Memory.wfFrom_mono (by omega) h4)
    · simp only [Memory.erase, hk, if_false]
      exact Memory.wfFrom_cons.2 ⟨h1, h2, h3, ih h4⟩

theorem Memory.wfFrom_insert_erase {a : Nat} {v : Byte} (ha : a < 256) (hv : v ≠ Config.cellReset)
    {m : Memory} {lo : Nat} (hlo : lo ≤ a) (h : Memory.wfFrom lo m = true) :
    Memory.wfFrom lo (Memory.insert (Memory.erase m a) a v) = true := by
  induction m generalizing lo with
  | nil => exact Memory.wfFrom_cons.2 ⟨hlo, ha, hv, rfl⟩
  | cons c m ih =>
    obtain ⟨k, w⟩ := c
    obtain ⟨h1, h2, h3, h4⟩ := Memory.wfFrom_cons.1 h
    by_cases hk : k = a
    · simp only [Memory.erase, hk, if_true]
      exact ih hlo (Memory.wfFrom_mono (by omega) h4)
    · by_cases hl : a < k
      · simp only [Memory.erase, hk, if_false, Memory.insert, hl, if_true]
        refine Memory.wfFrom_cons.2 ⟨hlo, ha, hv, Memory.wfFrom_cons.2 ⟨hl, h2, h3, ?_⟩⟩
        exact Memory.wfFrom_erase a h4
      · simp only [Memory.erase, hk, if_false, Memory.insert, hl]
        exact Memory.wfFrom_cons.2 ⟨h1, h2, h3, ih (by omega) h4⟩

/-- `MemWrite` keeps the canonical form. -/
theorem Memory.wf_write {m : Memory} (h : Memory.wf m = true) {a : Nat} (ha : a < 256) (v : Byte) :
    Memory.wf (Memory.write m a v) = true := by
  by_cases hv : v = Config.cellReset
  · simpa [Memory.write, hv, Memory.wf] using Memory.wfFrom_erase a h
  · simpa [Memory.write, hv, Memory.wf] using Memory.wfFrom_insert_erase ha hv (Nat.zero_le a) h

theorem State.store_wf {s : State} (h : Memory.wf s.mem = true) (c v : Byte) :
    Memory.wf (s.store c v).mem = true :=
  Memory.wf_write h c.isLt v

/-- The loader's stores keep the canonical form. -/
theorem State.storeBytes_wf (vs : List Byte) {s : State} (h : Memory.wf s.mem = true) (addr : Nat) :
    Memory.wf (s.storeBytes addr vs).mem = true := by
  induction vs generalizing s addr with
  | nil => exact h
  | cons v vs ih =>
    by_cases ha : addr ≤ 255
    · simpa [State.storeBytes, ha] using ih (State.store_wf h _ v) (addr + 1)
    · simpa [State.storeBytes, ha] using h

/-- The memory of the reset state is in canonical form. -/
theorem State.reset_mem_wf : Memory.wf State.reset.mem = true := rfl

theorem Memory.read_below {m : Memory} {lo a : Nat} (h : Memory.wfFrom lo m = true) (ha : a < lo) :
    Memory.read m a = Config.cellReset := by
  induction m generalizing lo with
  | nil => rfl
  | cons c m ih =>
    obtain ⟨k, w⟩ := c
    obtain ⟨h1, -, -, h4⟩ := Memory.wfFrom_cons.1 h
    have : k ≠ a := by omega
    simp only [Memory.read, this, if_false]
    exact ih h4 (by omega)

theorem Memory.read_wfFrom_ext {m m' : Memory} {lo : Nat} (h : Memory.wfFrom lo m = true)
    (h' : Memory.wfFrom lo m' = true) (hr : ∀ a, a < 256 → Memory.read m a = Memory.read m' a) :
    m = m' := by
  induction m generalizing m' lo with
  | nil =>
    cases m' with
    | nil => rfl
    | cons c m' =>
      obtain ⟨k, w⟩ := c
      obtain ⟨-, h2, h3, -⟩ := Memory.wfFrom_cons.1 h'
      have e : Config.cellReset = w := by simpa [Memory.read] using hr k h2
      exact absurd e.symm h3
  | cons c m ih =>
    obtain ⟨k, w⟩ := c
    obtain ⟨h1, h2, h3, h4⟩ := Memory.wfFrom_cons.1 h
    cases m' with
    | nil =>
      have e : w = Config.cellReset := by simpa [Memory.read] using hr k h2
      exact absurd e h3
    | cons c' m' =>
      obtain ⟨k', w'⟩ := c'
      obtain ⟨h1', h2', h3', h4'⟩ := Memory.wfFrom_cons.1 h'
      have hk : k = k' := by
        rcases lt_trichotomy k k' with hl | he | hl
        · have e := hr k h2
          have hne : k' ≠ k := by omega
          simp only [Memory.read, if_true, hne, if_false] at e
          exact absurd (e.trans (Memory.read_below h4' (by omega))) h3
        · exact he
        · have e := hr k' h2'
          have hne : k ≠ k' := by omega
          simp only [Memory.read, if_true, hne, if_false] at e
          exact absurd (e.symm.trans (Memory.read_below h4 (by omega))) h3'
      subst hk
      have hw : w = w' := by simpa [Memory.read] using hr k h2
      subst hw
      have : m = m' := by
        refine ih h4 h4' fun a ha => ?_
        by_cases hka : k = a
        · subst hka
          rw [Memory.read_below h4 (by omega), Memory.read_below h4' (by omega)]
        · simpa [Memory.read, hka] using hr a ha
      rw [this]

/-- Memories in canonical form that hold the same 256 bytes are the same list. -/
theorem Memory.wf_ext {m m' : Memory} (h : Memory.wf m = true) (h' : Memory.wf m' = true)
    (hr : ∀ a, a < 256 → Memory.read m a = Memory.read m' a) : m = m' :=
  Memory.read_wfFrom_ext h h' hr

end Sys2Proof.Machine
end

