-- ==== Sys2Proof/Laws/Operands.lean ====
section
/-! SUPPORT. The register operand: what the check answers on a byte that names a register and on one that
does not, and everything an instruction with register operands can do. -/

namespace Sys2Proof.Machine

theorem regByte_toNat (r : RegIdx) : (regByte r).toNat = r.val := by
  have := r.isLt
  simp only [regByte, BitVec.toNat_ofNat]
  omega

@[simp] theorem regIndex_regByte (r : RegIdx) : regIndex (regByte r) = some r := by
  have := r.isLt
  simp [regIndex, regByte_toNat]

theorem regIndex_eq_some {v : Byte} {r : RegIdx} : regIndex v = some r ↔ v = regByte r := by
  constructor
  · intro h
    have hr := regByte_toNat r
    unfold regIndex at h
    split at h
    · apply BitVec.eq_of_toNat_eq
      rw [hr, ← Option.some.inj h]
    · cases h
  · rintro rfl
    exact regIndex_regByte r

theorem regIndex_eq_none {v : Byte} : regIndex v = none ↔ v.toNat > 7 := by
  unfold regIndex
  split <;> simp <;> omega

theorem validReg_iff {v : Byte} : validReg v = true ↔ ∃ r, v = regByte r := by
  cases h : regIndex v with
  | none =>
    have := regIndex_eq_none.1 h
    simp only [validReg, decide_eq_true_eq]
    constructor
    · intro hv; omega
    · rintro ⟨r, rfl⟩; simp at h
  | some r =>
    have hv := regIndex_eq_some.1 h
    simp only [validReg, decide_eq_true_eq]
    have := r.isLt
    have := regByte_toNat r
    subst hv
    exact ⟨fun _ => ⟨r, rfl⟩, fun _ => by omega⟩

@[simp] theorem withReg_regByte (r : RegIdx) (s : State) (k : RegIdx → Result) :
    withReg (regByte r) s k = k r := by
  simp [withReg]

@[simp] theorem withRegs_regByte (r q : RegIdx) (s : State) (k : RegIdx → RegIdx → Result) :
    withRegs (regByte r) (regByte q) s k = k r q := by
  simp [withRegs]

/-- The fatal condition of an operand byte above 7 (R96, R184). -/
theorem withReg_invalid {a : Byte} (h : a.toNat > 7) (s : State) (k : RegIdx → Result) :
    withReg a s k = .next (s.latch (.invalidRegister a s.pc)) := by
  simp [withReg, regIndex_eq_none.2 h, raise]

/-- Everything an instruction with one register operand can do. -/
theorem withReg_cases (a : Byte) (s : State) (k : RegIdx → Result) :
    (∃ r, a = regByte r ∧ withReg a s k = k r) ∨
      (a.toNat > 7 ∧ withReg a s k = .next (s.latch (.invalidRegister a s.pc))) := by
  cases h : regIndex a with
  | none => exact .inr ⟨regIndex_eq_none.1 h, withReg_invalid (regIndex_eq_none.1 h) s k⟩
  | some r => exact .inl ⟨r, regIndex_eq_some.1 h, by simp [withReg, h]⟩

/-- Everything an instruction with two register operands can do: the handler runs, or the first
operand that names no register is reported. -/
theorem withRegs_cases (a b : Byte) (s : State) (k : RegIdx → RegIdx → Result) :
    (∃ r q, a = regByte r ∧ b = regByte q ∧ withRegs a b s k = k r q) ∨
      (∃ v, (v = a ∨ v = b) ∧ v.toNat > 7 ∧
        withRegs a b s k = .next (s.latch (.invalidRegister v s.pc))) := by
  obtain ⟨r, rfl, -⟩ | ⟨ha, h⟩ := withReg_cases a s fun ra => withReg b s fun rb => k ra rb
  · obtain ⟨q, rfl, -⟩ | ⟨hb, h⟩ := withReg_cases b s (k r)
    · exact .inl ⟨r, q, rfl, rfl, withRegs_regByte r q s k⟩
    · exact .inr ⟨b, .inr rfl, hb, by simpa [withRegs] using h⟩
  · exact .inr ⟨a, .inl rfl, ha, by simpa [withRegs] using h⟩

end Sys2Proof.Machine
end

