-- ==== Sys2Proof/Laws/Exec.lean ====
section
/-! SUPPORT. What the shared shapes of the meanings do on register operands, and everything an instruction
can do, said once: `exec_effect`. -/

namespace Sys2Proof.Machine

variable (s : State)

/-! ## The shared shapes, on operands that name registers -/

@[simp] theorem aluBinary_regs (f : Byte → Byte → Byte) (a b : RegIdx) :
    aluBinary f (regByte a) (regByte b) s
      = .next ((s.setReg a (f (s.reg a) (s.reg b))).advance 3) := by
  simp [aluBinary]

@[simp] theorem aluDivide_regs (f : Byte → Byte → Byte) (a b : RegIdx) :
    aluDivide f (regByte a) (regByte b) s
      = if s.reg b = 0 then .next (s.latch (.divisionByZero s.pc))
        else .next ((s.setReg a (f (s.reg a) (s.reg b))).advance 3) := by
  simp [aluDivide, raise]

@[simp] theorem aluUnary_reg (f : Byte → Byte) (a : RegIdx) :
    aluUnary f (regByte a) s = .next ((s.setReg a (f (s.reg a))).advance 2) := by
  simp [aluUnary]

@[simp] theorem jumpIf_reg (c : Bool) (a : RegIdx) :
    jumpIf c (regByte a) s
      = .next (if c then s.setPc (zext9 (s.reg a)) else s.advance 2) := by
  simp [jumpIf]

@[simp] theorem emitReg_reg (k : OutKind) (a : RegIdx) :
    emitReg k (regByte a) s = .next ((s.emit k (s.reg a)).advance 2) := by
  simp [emitReg]

/-! ## The result functions are the 8-bit operations (R124) -/

theorem aluAdd_eq (u v : Byte) : aluAdd u v = u + v :=
  BitVec.eq_of_toNat_eq (by simp [aluAdd])

theorem aluMul_eq (u v : Byte) : aluMul u v = u * v :=
  BitVec.eq_of_toNat_eq (by simp [aluMul])

theorem aluSub_toNat (u v : Byte) : (aluSub u v).toNat = (u.toNat + 256 - v.toNat) % 256 := by
  have hu := u.isLt
  have hv := v.isLt
  simp only [aluSub, BitVec.toNat_ofInt]
  omega

theorem aluDec_toNat (u : Byte) : (aluDec u).toNat = (u.toNat + 255) % 256 := by
  have hu := u.isLt
  simp only [aluDec, BitVec.toNat_ofInt]
  omega

theorem aluNot_eq (u : Byte) : aluNot u = ~~~u := by
  apply BitVec.eq_of_toNat_eq
  have hu := u.isLt
  simp only [aluNot, BitVec.toNat_ofNat, BitVec.toNat_not]
  omega

/-- CMP writes one of three values (R130). -/
theorem compareFl_cases (u v : Byte) :
    (u.toNat = v.toNat ∧ compareFl u v = 1) ∨ (u.toNat > v.toNat ∧ compareFl u v = 2) ∨
      (u.toNat < v.toNat ∧ compareFl u v = 4) := by
  rcases lt_trichotomy u.toNat v.toNat with h | h | h
  · refine .inr (.inr ⟨h, ?_⟩)
    have h1 : ¬ u.toNat = v.toNat := by omega
    have h2 : ¬ u.toNat > v.toNat := by omega
    simp only [compareFl, h, h1, h2]
    rfl
  · refine .inl ⟨h, ?_⟩
    simp only [compareFl, h]
    simp [mkFl]
  · refine .inr (.inl ⟨h, ?_⟩)
    have h1 : ¬ u.toNat = v.toNat := by omega
    have h2 : ¬ u.toNat < v.toNat := by omega
    simp only [compareFl, h1, h2, h]
    rfl

/-! ## Everything an instruction can do -/

/-- The instructions whose handler writes the register of their first operand and nothing else: the
thirteen of 41_alu.md, LDI and LD (R23). -/
def setsFirstReg : Instr → Bool
  | .add _ _ | .sub _ _ | .mul _ _ | .div _ _ | .mod _ _ => true
  | .and _ _ | .or _ _ | .xor _ _ | .shl _ _ | .shr _ _ => true
  | .inc _ | .dec _ | .not _ | .ldi _ _ | .ld _ _ => true
  | _ => false

/-- The effects an instruction can have from `s`, each with the instructions that can have it. -/
inductive Effect : Instr → State → Prop where
  /-- A register-index operand names no register (R96). -/
  | badRegister {i : Instr} {v : Byte} (hv : v ∈ i.regOperands) (hn : v.toNat > 7) :
      Effect i (s.latch (.invalidRegister v s.pc))
  /-- DIV or MOD with a zero divisor (R183). -/
  | divideByZero {i : Instr} {a b : RegIdx}
      (hi : i = .div (regByte a) (regByte b) ∨ i = .mod (regByte a) (regByte b)) (h0 : s.reg b = 0) :
      Effect i (s.latch (.divisionByZero s.pc))
  /-- CALL whose return address is above 255 (R147). -/
  | callTooHigh {a : RegIdx} (h : s.pc.toNat + 2 > 255) :
      Effect (.call (regByte a)) (s.latch (.addressOutOfRange (s.pc.toNat + 2) s.pc))
  /-- INT and IRET (R150, R151). -/
  | reserved {i : Instr} (hi : (∃ a, i = .int a) ∨ i = .iret) :
      Effect i (s.latch (.unknownOpcode i.opcode s.pc))
  /-- A register is written and the program counter advances past the instruction. -/
  | writesReg {i : Instr} {ops : List Byte} (hi : i.regOperands = ops) (r : RegIdx)
      (hr : ops.head? = some (regByte r)) (v : Byte) (hP : opP i.opcode = false)
      (hw : setsFirstReg i = true) : Effect i ((s.setReg r v).advance i.length)
  /-- CMP (R130). -/
  | compares (a b : RegIdx) :
      Effect (.cmp (regByte a) (regByte b)) ((s.setFl (compareFl (s.reg a) (s.reg b))).advance 3)
  /-- A jump taken (R139). -/
  | jumps {i : Instr} (hP : opP i.opcode = true) (a : RegIdx) :
      Effect i (s.setPc (zext9 (s.reg a)))
  /-- A jump not taken (R138). -/
  | fallsThrough {i : Instr} (hP : opP i.opcode = true) (hl : i.length = 2) : Effect i (s.advance 2)
  /-- PUSH (R145). -/
  | pushes (a : RegIdx) :
      Effect (.push (regByte a)) ((s.spDec.storeTop (s.spDec.reg a)).advance 2)
  /-- POP (R146). -/
  | pops (a : RegIdx) :
      Effect (.pop (regByte a)) ((s.setReg a (s.load s.sp)).spInc.advance 2)
  /-- CALL (R147). -/
  | calls (a : RegIdx) (h : s.pc.toNat + 2 ≤ 255) :
      Effect (.call (regByte a))
        ((s.spDec.storeTop (BitVec.ofNat 8 (s.pc.toNat + 2))).setPc (zext9 (s.spDec.reg a)))
  /-- RET (R148). -/
  | returns : Effect .ret (s.setPc (zext9 (s.load s.sp))).spInc
  /-- ST (R162). -/
  | stores (a b : RegIdx) :
      Effect (.st (regByte a) (regByte b)) ((s.store (s.reg a) (s.reg b)).advance 3)
  /-- PRN (R163) and PRA (R164). -/
  | prints {i : Instr} {k : OutKind} {a : RegIdx}
      (hi : (k = .prn ∧ i = .prn (regByte a)) ∨ (k = .pra ∧ i = .pra (regByte a))) :
      Effect i ((s.emit k (s.reg a)).advance 2)
  /-- NOP (R165). -/
  | passes : Effect .nop (s.advance 1)
  /-- HLT (R166). -/
  | halts : Effect .hlt (s.setHalt.advance 1)

theorem withReg_effect {i : Instr} {a : Byte} {k : RegIdx → Result} (hi : i.regOperands = [a])
    (h : ∀ r, a = regByte r → ∃ t, k r = .next t ∧ Effect s i t) :
    ∃ t, withReg a s k = .next t ∧ Effect s i t := by
  obtain ⟨r, hr, hk⟩ | ⟨hn, hk⟩ := withReg_cases a s k
  · rw [hk]; exact h r hr
  · exact ⟨_, hk, .badRegister (by simp [hi]) hn⟩

theorem withRegs_effect {i : Instr} {a b : Byte} {k : RegIdx → RegIdx → Result}
    (hi : i.regOperands = [a, b])
    (h : ∀ r q, a = regByte r → b = regByte q → ∃ t, k r q = .next t ∧ Effect s i t) :
    ∃ t, withRegs a b s k = .next t ∧ Effect s i t := by
  obtain ⟨r, q, hr, hq, hk⟩ | ⟨v, hv, hn, hk⟩ := withRegs_cases a b s k
  · rw [hk]; exact h r q hr hq
  · exact ⟨_, hk, .badRegister (by simpa [hi] using hv) hn⟩

theorem aluBinary_effect {i : Instr} {a b : Byte} (f : Byte → Byte → Byte)
    (hi : i.regOperands = [a, b]) (hP : opP i.opcode = false) (hl : i.length = 3)
    (hw : setsFirstReg i = true) : ∃ t, aluBinary f a b s = .next t ∧ Effect s i t :=
  withRegs_effect s hi fun r q hr _ =>
    ⟨_, rfl, hl ▸ Effect.writesReg hi r (by simp [hr]) _ hP hw⟩

theorem aluDivide_effect {i : Instr} {a b : Byte} (f : Byte → Byte → Byte)
    (hi : i = .div a b ∨ i = .mod a b) : ∃ t, aluDivide f a b s = .next t ∧ Effect s i t := by
  have hops : i.regOperands = [a, b] := by rcases hi with rfl | rfl <;> rfl
  refine withRegs_effect s hops fun r q hr hq => ?_
  by_cases h0 : s.reg q = 0
  · exact ⟨_, if_pos h0, .divideByZero (by simpa [hr, hq] using hi) h0⟩
  · have hP : opP i.opcode = false := by rcases hi with rfl | rfl <;> simp [Instr.opcode, encode, opP]
    have hl : i.length = 3 := by rcases hi with rfl | rfl <;> rfl
    have hw : setsFirstReg i = true := by rcases hi with rfl | rfl <;> rfl
    exact ⟨_, if_neg h0, hl ▸ Effect.writesReg hops r (by simp [hr]) _ hP hw⟩

theorem aluUnary_effect {i : Instr} {a : Byte} (f : Byte → Byte) (hi : i.regOperands = [a])
    (hP : opP i.opcode = false) (hl : i.length = 2) (hw : setsFirstReg i = true) :
    ∃ t, aluUnary f a s = .next t ∧ Effect s i t :=
  withReg_effect s hi fun r hr => ⟨_, rfl, hl ▸ Effect.writesReg hi r (by simp [hr]) _ hP hw⟩

theorem jumpIf_effect {i : Instr} {a : Byte} (c : Bool) (hi : i.regOperands = [a])
    (hP : opP i.opcode = true) (hl : i.length = 2) : ∃ t, jumpIf c a s = .next t ∧ Effect s i t := by
  refine withReg_effect s hi fun r _ => ⟨_, rfl, ?_⟩
  cases c
  · exact .fallsThrough hP hl
  · exact .jumps hP r

/-- Every instruction answers a next state, and has one of the effects. -/
theorem exec_effect (i : Instr) : ∃ t, exec i s = .next t ∧ Effect s i t := by
  cases i with
  | nop => exact ⟨_, rfl, .passes⟩
  | hlt => exact ⟨_, rfl, .halts⟩
  | ret => exact ⟨_, rfl, .returns⟩
  | iret => exact ⟨_, rfl, .reserved (.inr rfl)⟩
  | push a => exact withReg_effect s rfl fun r hr => ⟨_, rfl, hr ▸ .pushes r⟩
  | pop a => exact withReg_effect s rfl fun r hr => ⟨_, rfl, hr ▸ .pops r⟩
  | prn a => exact withReg_effect s rfl fun r hr => ⟨_, rfl, .prints (.inl ⟨rfl, by rw [hr]⟩)⟩
  | pra a => exact withReg_effect s rfl fun r hr => ⟨_, rfl, .prints (.inr ⟨rfl, by rw [hr]⟩)⟩
  | call a =>
    refine withReg_effect s rfl fun r hr => ?_
    subst hr
    by_cases h : s.pc.toNat + 2 > 255
    · exact ⟨_, if_pos h, .callTooHigh h⟩
    · exact ⟨_, if_neg h, .calls r (by omega)⟩
  | int a => exact ⟨_, rfl, .reserved (.inl ⟨a, rfl⟩)⟩
  | jmp a => exact jumpIf_effect s _ rfl (by simp [Instr.opcode, encode, opP]) rfl
  | jeq a => exact jumpIf_effect s _ rfl (by simp [Instr.opcode, encode, opP]) rfl
  | jne a => exact jumpIf_effect s _ rfl (by simp [Instr.opcode, encode, opP]) rfl
  | jgt a => exact jumpIf_effect s _ rfl (by simp [Instr.opcode, encode, opP]) rfl
  | jlt a => exact jumpIf_effect s _ rfl (by simp [Instr.opcode, encode, opP]) rfl
  | jle a => exact jumpIf_effect s _ rfl (by simp [Instr.opcode, encode, opP]) rfl
  | jge a => exact jumpIf_effect s _ rfl (by simp [Instr.opcode, encode, opP]) rfl
  | inc a => exact aluUnary_effect s _ rfl (by simp [Instr.opcode, encode, opP]) rfl rfl
  | dec a => exact aluUnary_effect s _ rfl (by simp [Instr.opcode, encode, opP]) rfl rfl
  | not a => exact aluUnary_effect s _ rfl (by simp [Instr.opcode, encode, opP]) rfl rfl
  | ldi a imm =>
    exact withReg_effect s rfl fun r hr =>
      ⟨_, rfl, Effect.writesReg (i := .ldi a imm) rfl r (by rw [hr]; rfl) imm
        (by simp [Instr.opcode, encode, opP]) rfl⟩
  | ld a b =>
    exact withRegs_effect s rfl fun r q hr _ =>
      ⟨_, rfl, Effect.writesReg (i := .ld a b) rfl r (by rw [hr]; rfl) _
        (by simp [Instr.opcode, encode, opP]) rfl⟩
  | st a b => exact withRegs_effect s rfl fun r q hr hq => ⟨_, rfl, hr ▸ hq ▸ .stores r q⟩
  | add a b => exact aluBinary_effect s _ rfl (by simp [Instr.opcode, encode, opP]) rfl rfl
  | sub a b => exact aluBinary_effect s _ rfl (by simp [Instr.opcode, encode, opP]) rfl rfl
  | mul a b => exact aluBinary_effect s _ rfl (by simp [Instr.opcode, encode, opP]) rfl rfl
  | div a b => exact aluDivide_effect s _ (.inl rfl)
  | mod a b => exact aluDivide_effect s _ (.inr rfl)
  | cmp a b => exact withRegs_effect s rfl fun r q hr hq => ⟨_, rfl, hr ▸ hq ▸ .compares r q⟩
  | and a b => exact aluBinary_effect s _ rfl (by simp [Instr.opcode, encode, opP]) rfl rfl
  | or a b => exact aluBinary_effect s _ rfl (by simp [Instr.opcode, encode, opP]) rfl rfl
  | xor a b => exact aluBinary_effect s _ rfl (by simp [Instr.opcode, encode, opP]) rfl rfl
  | shl a b => exact aluBinary_effect s _ rfl (by simp [Instr.opcode, encode, opP]) rfl rfl
  | shr a b => exact aluBinary_effect s _ rfl (by simp [Instr.opcode, encode, opP]) rfl rfl

/-- A next state of an instruction is one of its effects. -/
theorem effect_of_exec {s t : State} {i : Instr} (h : exec i s = .next t) : Effect s i t := by
  obtain ⟨u, hu, he⟩ := exec_effect s i
  rw [h] at hu
  injection hu with hu
  exact hu ▸ he

end Sys2Proof.Machine
end

