-- ==== Sys2Proof/Laws/Fetch.lean ====
section
/-! SUPPORT. Instruction fetch: the bytes fetched are the bytes that stand at `pc`, and everything the
fetch and the lookup can answer, check by check in the order of 40_control_unit.md R99. -/

namespace Sys2Proof.Machine

theorem operandBytes_length (m : Memory) (addr n : Nat) (h : addr + n ≤ 256) :
    (operandBytes m addr n).length = n := by
  induction n generalizing addr with
  | zero => rfl
  | succ n ih =>
    have : addr ≤ 255 := by omega
    simp [operandBytes, this, ih (addr + 1) (by omega)]

theorem operandBytes_length_lt (m : Memory) (addr n : Nat) (ha : addr ≤ 256) (h : addr + n > 256) :
    (operandBytes m addr n).length < n := by
  induction n generalizing addr with
  | zero => omega
  | succ n ih =>
    by_cases hle : addr ≤ 255
    · simpa [operandBytes, hle] using ih (addr + 1) (by omega) (by omega)
    · simp [operandBytes, hle]

theorem operandBytes_getElem (m : Memory) (addr n k : Nat) (h : k < (operandBytes m addr n).length) :
    (operandBytes m addr n)[k] = Memory.read m (addr + k) := by
  induction n generalizing addr k with
  | zero => simp [operandBytes] at h
  | succ n ih =>
    by_cases hle : addr ≤ 255
    · cases k with
      | zero => simp [operandBytes, hle]
      | succ k =>
        simp only [operandBytes, hle, if_true, List.length_cons] at h
        have e := ih (addr + 1) k (by omega)
        simp only [operandBytes, hle, if_true, List.getElem_cons_succ, e]
        congr 1
        omega
    · simp [operandBytes, hle] at h

/-- The bytes of an encoding that stand at `pc` are the bytes the step fetches (R90, R94). -/
theorem fetchBytes_of_bytesAt {s : State} {i : Instr} (h : BytesAt s s.pc.toNat (encode i)) :
    fetchBytes s = encode i := by
  obtain ⟨hlen, hget⟩ := h
  have hl : (encode i).length = 1 + opN i.opcode := (Laws.OpcodeFields.all i).1
  obtain ⟨op, bs, he⟩ : ∃ op bs, encode i = op :: bs := by
    cases hc : encode i with
    | nil => rw [hc] at hl; simp only [List.length_nil] at hl; omega
    | cons op bs => exact ⟨op, bs, rfl⟩
  have hop : i.opcode = op := by simp [Instr.opcode, he]
  have h0 : Memory.read s.mem s.pc.toNat = op := by
    have := hget 0 (by rw [he]; simp)
    simpa [he] using this
  have hbs : bs.length = opN op := by rw [he, hop] at hl; simp only [List.length_cons] at hl; omega
  have hle : s.pc.toNat ≤ 255 := by rw [he] at hlen; simp only [List.length_cons] at hlen; omega
  rw [he, fetchBytes, if_pos hle, h0]
  congr 1
  have hol : (operandBytes s.mem (s.pc.toNat + 1) (opN op)).length = opN op := by
    apply operandBytes_length
    rw [he] at hlen; simp only [List.length_cons] at hlen; omega
  apply List.ext_getElem (by rw [hol, hbs])
  intro k hk hk'
  rw [operandBytes_getElem]
  have := hget (k + 1) (by rw [he]; simpa using hk')
  simp only [he, List.getElem_cons_succ] at this
  rw [← this]
  congr 1
  omega

/-- Everything the fetch and the lookup can answer (R99): no opcode byte; an opcode that does not
function; a functioning one whose operands do not all lie in memory; or the instruction whose bytes
stand at `pc`. -/
theorem fetch_cases (s : State) :
    (s.pc.toNat > 255 ∧ decode (fetchBytes s) = .error .noOpcode) ∨
    (∃ op, OpcodeAt s op ∧ op ∉ functioningOpcodes ∧
      (decode (fetchBytes s) = .error (.unknownOpcode op) ∨
        (op = 0x52 ∧ ∃ a, decode (fetchBytes s) = .ok (.int a, [])) ∨
        (op = 0x13 ∧ decode (fetchBytes s) = .ok (.iret, [])))) ∨
    (∃ op, OpcodeAt s op ∧ op ∈ functioningOpcodes ∧ s.pc.toNat + opN op > 255 ∧
      decode (fetchBytes s) = .error (.missingOperand op)) ∨
    (∃ i, i.opcode ∈ functioningOpcodes ∧ BytesAt s s.pc.toNat (encode i) ∧
      decode (fetchBytes s) = .ok (i, [])) := by
  by_cases hpc : s.pc.toNat ≤ 255
  swap
  · exact .inl ⟨by omega, by simp [fetchBytes, hpc, decode]⟩
  refine .inr ?_
  generalize hop : Memory.read s.mem s.pc.toNat = op
  have hat : OpcodeAt s op := ⟨hpc, hop⟩
  have hfb : fetchBytes s = op :: operandBytes s.mem (s.pc.toNat + 1) (opN op) := by
    simp [fetchBytes, hpc, hop]
  have hsome := lookupOp_isSome op
  cases he : lookupOp op with
  | none =>
    rw [he] at hsome
    simp only [Option.isSome_none, Bool.false_eq, Bool.or_eq_false_iff] at hsome
    refine .inl ⟨op, hat, by simpa using hsome.1, .inl ?_⟩
    simp [hfb, decode, he]
  | some e =>
    rw [he] at hsome
    obtain ⟨hN, henc⟩ := lookupOp_sound he
    simp only [Option.isSome_some, Bool.true_eq, Bool.or_eq_true, List.contains_iff_mem] at hsome
    have hbytes : s.pc.toNat + opN op ≤ 255 → ∀ {i : Instr},
        encode i = op :: operandBytes s.mem (s.pc.toNat + 1) (opN op) →
        BytesAt s s.pc.toNat (encode i) := by
      intro hle i hi
      rw [hi]
      refine ⟨?_, ?_⟩
      · simp only [List.length_cons, operandBytes_length _ _ _ (show s.pc.toNat + 1 + opN op ≤ 256 by omega)]
        omega
      · intro k hk
        cases k with
        | zero => simpa using hop
        | succ k =>
          simp only [List.getElem_cons_succ, operandBytes_getElem]
          congr 1
          omega
    have hshort : s.pc.toNat + opN op > 255 → ∃ bs, operandBytes s.mem (s.pc.toNat + 1) (opN op) = bs ∧
        bs.length < opN op := fun h => ⟨_, rfl, operandBytes_length_lt _ _ _ (by omega) (by omega)⟩
    have hlong : s.pc.toNat + opN op ≤ 255 → ∃ bs, operandBytes s.mem (s.pc.toNat + 1) (opN op) = bs ∧
        bs.length = opN op := fun h => ⟨_, rfl, operandBytes_length _ _ _ (by omega)⟩
    by_cases hfun : op ∈ functioningOpcodes
    · have hres : reservedOp op = false := by
        revert hfun; clear * -; revert op; decide
      refine .inr ?_
      by_cases hle : s.pc.toNat + opN op ≤ 255
      · refine .inr ?_
        obtain ⟨bs, hbs, hlen⟩ := hlong hle
        have fin : ∀ i, encode i = op :: bs → decode (fetchBytes s) = .ok (i, []) →
            ∃ i, i.opcode ∈ functioningOpcodes ∧ BytesAt s s.pc.toNat (encode i) ∧
              decode (fetchBytes s) = .ok (i, []) := fun i hi hd =>
          ⟨i, by simpa [Instr.opcode, hi] using hfun, hbytes hle (hi.trans (by rw [hbs])), hd⟩
        rw [hbs] at hfb
        rw [← hN] at hlen
        cases e with
        | f0 i =>
          obtain rfl := List.eq_nil_of_length_eq_zero hlen
          exact fin i henc (by simp [hfb, decode, he])
        | f1 mk =>
          obtain ⟨a, rfl⟩ := List.length_eq_one_iff.1 hlen
          exact fin (mk a) (henc a) (by simp [hfb, decode, he])
        | f2 mk =>
          obtain ⟨a, b, rfl⟩ := List.length_eq_two.1 hlen
          exact fin (mk a b) (henc a b) (by simp [hfb, decode, he])
      · refine .inl ⟨op, hat, hfun, by omega, ?_⟩
        obtain ⟨bs, hbs, hlen⟩ := hshort (by omega)
        rw [hbs] at hfb
        rw [← hN] at hlen
        cases e with
        | f0 i => simp [Entry.operands] at hlen
        | f1 mk =>
          obtain rfl : bs = [] := List.eq_nil_of_length_eq_zero (by simp only [Entry.operands] at hlen; omega)
          simp [hfb, decode, he, hres]
        | f2 mk =>
          match bs, hlen with
          | [], _ => simp [hfb, decode, he, hres]
          | [a], _ => simp [hfb, decode, he, hres]
          | _ :: _ :: _, h => simp [Entry.operands] at h
    · refine .inl ⟨op, hat, hfun, ?_⟩
      have hres : op = 0x52 ∨ op = 0x13 := by
        simpa [reservedOp, hfun] using hsome
      rcases hres with rfl | rfl
      · obtain rfl : e = .f1 .int := by
          have : lookupOp 0x52 = some (.f1 .int) := rfl
          rw [this] at he; exact (Option.some.inj he).symm
        have h1 : opN 0x52 = 1 := rfl
        by_cases hle : s.pc.toNat + 1 ≤ 255
        · exact .inr (.inl ⟨rfl, Memory.read s.mem (s.pc.toNat + 1),
            by rw [hfb, h1, operandBytes, if_pos hle]; rfl⟩)
        · exact .inl (by rw [hfb, h1, operandBytes, if_neg hle]; rfl)
      · obtain rfl : e = .f0 .iret := by
          have : lookupOp 0x13 = some (.f0 .iret) := rfl
          rw [this] at he; exact (Option.some.inj he).symm
        have h0 : opN 0x13 = 0 := rfl
        exact .inr (.inr ⟨rfl, by rw [hfb, h0, operandBytes]; rfl⟩)

end Sys2Proof.Machine
end

