-- ==== Sys2Proof/Laws/Step.lean ====
section
/-! SUPPORT. Everything a step can do, said once: `step_running` and `step_cases`. -/

namespace Sys2Proof.Machine

theorem step_of_running {s : State} (h : s.Running) :
    step s = match decode (fetchBytes s) with
      | .ok (i, _) => exec i s
      | .error e => fetchFailure e s := by
  rw [step, (State.status_running s).2 h] <;> rfl

/-- A running core takes a step, and it does one of four things (R90, R99): it raises on `pc`, it raises
on the opcode, it raises on the operands' addresses, or it runs the instruction at `pc`. -/
theorem step_running {s : State} (h : s.Running) :
    (s.pc.toNat > 255 ∧ step s = .next (s.latch (.addressOutOfRange s.pc.toNat s.pc))) ∨
    (∃ op, OpcodeAt s op ∧ op ∉ functioningOpcodes ∧
      step s = .next (s.latch (.unknownOpcode op s.pc))) ∨
    (∃ op, OpcodeAt s op ∧ op ∈ functioningOpcodes ∧ s.pc.toNat + opN op > 255 ∧
      step s = .next (s.latch (.addressOutOfRange 256 s.pc))) ∨
    (∃ i, i.opcode ∈ functioningOpcodes ∧ BytesAt s s.pc.toNat (encode i) ∧ step s = exec i s) := by
  rw [step_of_running h]
  obtain ⟨hpc, hd⟩ | ⟨op, hat, hnot, hd | ⟨rfl, a, hd⟩ | ⟨rfl, hd⟩⟩ | ⟨op, hat, hin, hhi, hd⟩ |
    ⟨i, hin, hb, hd⟩ := fetch_cases s
  · exact .inl ⟨hpc, by rw [hd]; rfl⟩
  · exact .inr (.inl ⟨op, hat, hnot, by rw [hd]; rfl⟩)
  · exact .inr (.inl ⟨_, hat, hnot, by rw [hd]; rfl⟩)
  · exact .inr (.inl ⟨_, hat, hnot, by rw [hd]; rfl⟩)
  · exact .inr (.inr (.inl ⟨op, hat, hin, hhi, by rw [hd]; rfl⟩))
  · exact .inr (.inr (.inr ⟨i, hin, hb, by rw [hd]⟩))

theorem running_of_step {s t : State} (h : step s = .next t) : s.Running := by
  cases hs : s.status with
  | running => exact (State.status_running s).1 hs
  | halted => simp [step, hs] at h
  | faulted c => simp [step, hs] at h

/-- The four things behind a step's next state. -/
theorem step_cases {s t : State} (h : step s = .next t) :
    s.Running ∧
      ((s.pc.toNat > 255 ∧ t = s.latch (.addressOutOfRange s.pc.toNat s.pc)) ∨
      (∃ op, OpcodeAt s op ∧ op ∉ functioningOpcodes ∧ t = s.latch (.unknownOpcode op s.pc)) ∨
      (∃ op, OpcodeAt s op ∧ op ∈ functioningOpcodes ∧ s.pc.toNat + opN op > 255 ∧
        t = s.latch (.addressOutOfRange 256 s.pc)) ∨
      (∃ i, i.opcode ∈ functioningOpcodes ∧ BytesAt s s.pc.toNat (encode i) ∧ exec i s = .next t)) := by
  have hr := running_of_step h
  refine ⟨hr, ?_⟩
  obtain ⟨hpc, e⟩ | ⟨op, hat, hnot, e⟩ | ⟨op, hat, hin, hhi, e⟩ | ⟨i, hin, hb, e⟩ := step_running hr <;>
    rw [h] at e
  · exact .inl ⟨hpc, by injection e⟩
  · exact .inr (.inl ⟨op, hat, hnot, by injection e⟩)
  · exact .inr (.inr (.inl ⟨op, hat, hin, hhi, by injection e⟩))
  · exact .inr (.inr (.inr ⟨i, hin, hb, e.symm⟩))

theorem getElem_zero_eq_headD (bs : List Byte) (h : 0 < bs.length) (d : Byte) :
    bs[0] = bs.headD d := by
  cases bs with
  | nil => simp at h
  | cons v bs => rfl

/-- The opcode byte of the bytes at `pc`. -/
theorem opcodeAt_of_bytesAt {s : State} {i : Instr} (h : BytesAt s s.pc.toNat (encode i)) :
    OpcodeAt s i.opcode := by
  obtain ⟨hlen, hget⟩ := h
  have hl : (encode i).length = 1 + opN i.opcode := (Laws.OpcodeFields.all i).1
  refine ⟨by omega, ?_⟩
  have := hget 0 (by omega)
  rw [Nat.add_zero] at this
  rw [this, Instr.opcode, getElem_zero_eq_headD]

end Sys2Proof.Machine
end

