-- ==== Sys2Proof/Laws/Session.lean ====
section
/-! SUPPORT. Everything a move of the host or of the core can do, said once (`Session.act_ok`), and the one
induction over sequences of moves (`Session.acts_induction`). -/

namespace Sys2Proof.Machine

theorem State.stopped_eq_false {s : State} : s.stopped = false ↔ s.Running := by
  rw [← Bool.not_eq_true, State.stopped_iff_not_running, not_not]

theorem Session.window_afterStop {p : Session} : p.window = .afterStop ↔ ¬ p.core.Running := by
  rw [← State.stopped_eq_false, Bool.not_eq_false, Session.window]
  split <;> [simp [*]; (split <;> simp [*])]

theorem Session.window_duringRun {p : Session} :
    p.window = .duringRun ↔ p.core.Running ∧ p.started = true := by
  rw [← State.stopped_eq_false, Session.window]
  split <;> [simp [*]; (split <;> simp [*])]

theorem Session.window_beforeRun {p : Session} :
    p.window = .beforeRun ↔ p.core.Running ∧ p.started = false := by
  rw [← State.stopped_eq_false, Session.window]
  split <;> [simp [*]; (split <;> simp [*])]

/-- A move that is made is one of these six, each in its window. -/
theorem Session.act_ok {m : Move} {p q : Session} (h : p.act m = .ok q) :
    (m = .reset ∧ q = Session.reset) ∨
    (∃ addr v, m = .load addr v ∧ p.window = .beforeRun ∧ q = { p with core := p.core.store addr v }) ∨
    (m = .run ∧ p.window = .beforeRun ∧ q = { p with started := true }) ∨
    (m = .run ∧ p.window = .afterStop ∧ q = p) ∨
    (m = .read ∧ p.window = .afterStop ∧ q = p) ∨
    (m = .step ∧ p.window = .duringRun ∧ ∃ t, step p.core = .next t ∧ q = { p with core := t }) := by
  cases m with
  | reset => exact .inl ⟨rfl, (Except.ok.inj h).symm⟩
  | load addr v =>
    cases hw : p.window <;> simp [Session.act, hostLoad, hw] at h
    exact .inr (.inl ⟨addr, v, rfl, rfl, h.symm⟩)
  | run =>
    cases hw : p.window <;> simp [Session.act, hostRun, hw] at h
    · exact .inr (.inr (.inl ⟨rfl, rfl, h.symm⟩))
    · exact .inr (.inr (.inr (.inl ⟨rfl, rfl, h.symm⟩)))
  | read =>
    cases hw : p.window <;> simp [Session.act, hostRead, hw, Except.map] at h
    exact .inr (.inr (.inr (.inr (.inl ⟨rfl, rfl, h.symm⟩))))
  | step =>
    cases hw : p.window <;> simp [Session.act, coreStep, hw] at h
    cases hs : step p.core with
    | next t =>
      rw [hs] at h
      exact .inr (.inr (.inr (.inr (.inr ⟨rfl, rfl, t, rfl, (Except.ok.inj h).symm⟩))))
    | fault f => rw [hs] at h; cases h
    | refused r => rw [hs] at h; cases h

/-- What holds of a session and is kept by every move that is made holds after any sequence of moves. -/
theorem Session.acts_induction {P : Session → Prop} (hm : ∀ m p q, P p → p.act m = .ok q → P q) :
    ∀ (ms : List Move) {p q : Session}, P p → p.acts ms = .ok q → P q
  | [], _, _, hp, h => Except.ok.inj h ▸ hp
  | m :: ms, p, _, hp, h => by
    cases ha : p.act m with
    | ok r =>
      rw [Session.acts, ha] at h
      exact acts_induction hm ms (hm m p r hp ha) h
    | error w => rw [Session.acts, ha] at h; cases h

theorem Session.acts_append (ms ns : List Move) (p : Session) :
    p.acts (ms ++ ns) = (p.acts ms).bind (fun q => q.acts ns) := by
  induction ms generalizing p with
  | nil => rfl
  | cons m ms ih =>
    rw [List.cons_append, Session.acts, Session.acts]
    cases p.act m with
    | ok q => exact ih q
    | error w => rfl

end Sys2Proof.Machine
end

