-- ==== Sys2Proof/Tests/Slice0.lean ====
section
/-! SUPPORT. The model's own tests: ill-formed instructions refused, words of 30_encoding.md R78 decoded,
one-step vectors of 95_test_vectors.md, and for every statement that has hypotheses a witness that meets
them all. Expected results come from spec/, by the file and table named. -/

namespace Sys2Proof.Tests

open Sys2Proof Sys2Proof.Machine

/-! ## Helpers -/

/-- The next state an answer holds. -/
def next? : Result → Option State
  | .next t => some t
  | .fault _ => none
  | .refused _ => none

/-- Reset, with some registers, some memory cells, `pc` and `fl` given. -/
def start (rs : List (RegIdx × Byte)) (cells : List (Byte × Byte)) (pc : PcWord) (fl : Byte) : State :=
  let s := rs.foldl (fun s r => s.setReg r.1 r.2) State.reset
  let s := cells.foldl (fun s c => s.store c.1 c.2) s
  (s.setPc pc).setFl fl

/-- The instruction bytes placed at `pc`. -/
def at_ (s : State) (bytes : List Byte) : State := s.storeBytes s.pc.toNat bytes

/-- One step of `s` makes exactly the change `f`. -/
def does (s : State) (f : State → State) : Bool := decide (next? (step s) = some (f s))

/-! ## WellFormed: one ill-formed term per check, and what is no register index -/

theorem test_wf_two_registers : (Instr.add 7 7).wf = true ∧ (Instr.add 8 0).wf = false ∧
    (Instr.add 0 8).wf = false ∧ (Instr.cmp 0xFF 0).wf = false ∧ (Instr.shr 1 0x80).wf = false := by decide
theorem test_wf_load_store : (Instr.ld 0 7).wf = true ∧ (Instr.ld 0 8).wf = false ∧
    (Instr.st 8 0).wf = false ∧ (Instr.st 0 8).wf = false := by decide
theorem test_wf_one_register : (Instr.push 7).wf = true ∧ (Instr.push 8).wf = false ∧
    (Instr.jeq 8).wf = false ∧ (Instr.inc 8).wf = false ∧ (Instr.prn 8).wf = false := by decide
theorem test_wf_immediate : (Instr.ldi 7 0xFF).wf = true ∧ (Instr.ldi 8 0).wf = false := by decide
theorem test_wf_int_operand : (Instr.int 0xFF).wf = true := by decide

/-! ## Decode: every row of R78, written out bit by bit (bits 7..0 the opcode byte, 15..8 the first operand,
23..16 the second) -/

theorem test_decode_f0 :
    decodeTableWord 8 0b00000000 = some .nop ∧ decodeTableWord 8 0b00000001 = some .hlt ∧
    decodeTableWord 8 0b00010001 = some .ret ∧ decodeTableWord 8 0b00010011 = some .iret := by decide
theorem test_decode_stack_console :
    decodeTableWord 16 0b00000010_01000101 = some (.push 2) ∧
    decodeTableWord 16 0b00000011_01000110 = some (.pop 3) ∧
    decodeTableWord 16 0b00000101_01000111 = some (.prn 5) ∧
    decodeTableWord 16 0b00000110_01001000 = some (.pra 6) := by decide
theorem test_decode_call_int :
    decodeTableWord 16 0b00000001_01010000 = some (.call 1) ∧
    decodeTableWord 16 0b11111111_01010010 = some (.int 0xFF) := by decide
theorem test_decode_jumps :
    decodeTableWord 16 0b00000001_01010100 = some (.jmp 1) ∧
    decodeTableWord 16 0b00000010_01010101 = some (.jeq 2) ∧
    decodeTableWord 16 0b00000011_01010110 = some (.jne 3) ∧
    decodeTableWord 16 0b00000100_01010111 = some (.jgt 4) ∧
    decodeTableWord 16 0b00000101_01011000 = some (.jlt 5) ∧
    decodeTableWord 16 0b00000110_01011001 = some (.jle 6) ∧
    decodeTableWord 16 0b00000111_01011010 = some (.jge 7) := by decide
theorem test_decode_alu_one_register :
    decodeTableWord 16 0b00000100_01100101 = some (.inc 4) ∧
    decodeTableWord 16 0b00000101_01100110 = some (.dec 5) ∧
    decodeTableWord 16 0b00000110_01101001 = some (.not 6) := by decide
theorem test_decode_load_store :
    decodeTableWord 24 0b10000000_00000111_10000010 = some (.ldi 7 0x80) ∧
    decodeTableWord 24 0b00000001_00000000_10000011 = some (.ld 0 1) ∧
    decodeTableWord 24 0b00000010_00000001_10000100 = some (.st 1 2) := by decide
theorem test_decode_alu_arithmetic :
    decodeTableWord 24 0b00000001_00000000_10100000 = some (.add 0 1) ∧
    decodeTableWord 24 0b00000010_00000001_10100001 = some (.sub 1 2) ∧
    decodeTableWord 24 0b00000011_00000010_10100010 = some (.mul 2 3) ∧
    decodeTableWord 24 0b00000100_00000011_10100011 = some (.div 3 4) ∧
    decodeTableWord 24 0b00000101_00000100_10100100 = some (.mod 4 5) ∧
    decodeTableWord 24 0b00000110_00000101_10100111 = some (.cmp 5 6) := by decide
theorem test_decode_alu_bitwise :
    decodeTableWord 24 0b00000001_00000000_10101000 = some (.and 0 1) ∧
    decodeTableWord 24 0b00000010_00000001_10101010 = some (.or 1 2) ∧
    decodeTableWord 24 0b00000011_00000010_10101011 = some (.xor 2 3) ∧
    decodeTableWord 24 0b00000100_00000011_10101100 = some (.shl 3 4) ∧
    decodeTableWord 24 0b00000101_00000100_10101101 = some (.shr 4 5) := by decide
theorem test_decode_rejects :
    decode [] = .error .noOpcode ∧ decode [0x02] = .error (.unknownOpcode 0x02) ∧
    decode [0xA5, 0, 0] = .error (.unknownOpcode 0xA5) ∧ decode [0xC0, 0, 0] = .error (.unknownOpcode 0xC0) ∧
    decode [0x45] = .error (.missingOperand 0x45) ∧ decode [0x82, 0] = .error (.missingOperand 0x82) ∧
    decode [0x52] = .error (.unknownOpcode 0x52) := by decide
theorem test_decode_leaves_the_rest :
    decode [0x01, 0x82, 0x00] = .ok (.hlt, [0x82, 0x00]) ∧
    decode [0x47, 0x00, 0x01] = .ok (.prn 0, [0x01]) := by decide

/-- The host's placed word is the very next instruction, three zero-filled bytes at `pc`. -/
theorem test_with_fetch_word :
    next? (step (State.reset.withFetchWord 24 0b00001000_00000000_10000010)) = some
      { State.reset.withFetchWord 24 0b00001000_00000000_10000010 with
        regs := State.reset.regs.set 0 8, pc := 3 } := by decide

/-! ## One step each: 95_test_vectors.md 2.1 -/

theorem test_add_wraps : does (at_ (start [(0, 0xC8), (1, 0x64)] [] 0 4) [0xA0, 0, 1])
    (fun s => (s.setReg 0 0x2C).setPc 3) = true := by decide
theorem test_add_at_253 : does (at_ (start [(0, 1), (1, 1)] [] 253 0) [0xA0, 0, 1])
    (fun s => (s.setReg 0 2).setPc 256) = true := by decide
theorem test_sub_wraps : does (at_ (start [(0, 5), (1, 10)] [] 0 0) [0xA1, 0, 1])
    (fun s => (s.setReg 0 0xFB).setPc 3) = true := by decide
theorem test_sub_unsigned : does (at_ (start [(0, 0x80), (1, 0xFF)] [] 0 0) [0xA1, 0, 1])
    (fun s => (s.setReg 0 0x81).setPc 3) = true := by decide
theorem test_mul_low_byte : does (at_ (start [(0, 0xFF), (1, 0xFF)] [] 0 0) [0xA2, 0, 1])
    (fun s => (s.setReg 0 1).setPc 3) = true := by decide
theorem test_mul_same_register : does (at_ (start [(4, 0x11)] [] 0 0) [0xA2, 4, 4])
    (fun s => (s.setReg 4 0x21).setPc 3) = true := by decide
theorem test_div_unsigned : does (at_ (start [(0, 0xFF), (1, 2)] [] 0 0) [0xA3, 0, 1])
    (fun s => (s.setReg 0 0x7F).setPc 3) = true := by decide
theorem test_div_by_zero : does (at_ (start [(0, 7)] [] 0 2) [0xA3, 0, 1])
    (fun s => s.latch (.divisionByZero 0)) = true := by decide
theorem test_mod_remainder : does (at_ (start [(0, 0x11), (1, 5)] [] 0 0) [0xA4, 0, 1])
    (fun s => (s.setReg 0 2).setPc 3) = true := by decide
theorem test_mod_by_zero : does (at_ (start [] [] 0 0) [0xA4, 0, 1])
    (fun s => s.latch (.divisionByZero 0)) = true := by decide
theorem test_inc_wraps : does (at_ (start [(0, 0xFF)] [] 0 0) [0x65, 0])
    (fun s => (s.setReg 0 0).setPc 2) = true := by decide
theorem test_inc_sp : does (at_ (start [] [] 0 0) [0x65, 7])
    (fun s => (s.setReg 7 0xF5).setPc 2) = true := by decide
theorem test_dec_wraps : does (at_ (start [] [] 0 0) [0x66, 0])
    (fun s => (s.setReg 0 0xFF).setPc 2) = true := by decide
theorem test_dec_sets_no_flag : does (at_ (start [(0, 1)] [] 0 0) [0x66, 0])
    (fun s => (s.setReg 0 0).setPc 2) = true := by decide
theorem test_and : does (at_ (start [(0, 0xCC), (1, 0xAA)] [] 0 0) [0xA8, 0, 1])
    (fun s => (s.setReg 0 0x88).setPc 3) = true := by decide
theorem test_or : does (at_ (start [(0, 0xCC), (1, 0xAA)] [] 0 0) [0xAA, 0, 1])
    (fun s => (s.setReg 0 0xEE).setPc 3) = true := by decide
theorem test_xor : does (at_ (start [(0, 0xCC), (1, 0xAA)] [] 0 0) [0xAB, 0, 1])
    (fun s => (s.setReg 0 0x66).setPc 3) = true := by decide
theorem test_not : does (at_ (start [(0, 0xA5)] [] 0 0) [0x69, 0])
    (fun s => (s.setReg 0 0x5A).setPc 2) = true := by decide
theorem test_shl_out : does (at_ (start [(0, 0x81), (1, 1)] [] 0 0) [0xAC, 0, 1])
    (fun s => (s.setReg 0 2).setPc 3) = true := by decide
theorem test_shl_whole_count : does (at_ (start [(0, 0xFF), (1, 9)] [] 0 0) [0xAC, 0, 1])
    (fun s => (s.setReg 0 0).setPc 3) = true := by decide
theorem test_shr_logical : does (at_ (start [(0, 0x81), (1, 1)] [] 0 0) [0xAD, 0, 1])
    (fun s => (s.setReg 0 0x40).setPc 3) = true := by decide
theorem test_shr_whole_count : does (at_ (start [(0, 0xFF), (1, 0xFF)] [] 0 0) [0xAD, 0, 1])
    (fun s => (s.setReg 0 0).setPc 3) = true := by decide

/-! ## 95_test_vectors.md 2.2 -/

theorem test_cmp_unsigned : does (at_ (start [(0, 0x80), (1, 0x7F)] [] 0 0) [0xA7, 0, 1])
    (fun s => (s.setFl 2).setPc 3) = true := by decide
theorem test_cmp_overwrites : does (at_ (start [(0, 1), (1, 2)] [] 0 3) [0xA7, 0, 1])
    (fun s => (s.setFl 4).setPc 3) = true := by decide

/-- `pc` after a jump at 16 with R2 = 0x40, for `fl` = 0, E, G and L: a row of the table. -/
def jumpRow (op : Byte) : List (Option Nat) :=
  [0x00, 0x01, 0x02, 0x04].map fun fl =>
    (next? (step (at_ (start [(2, 0x40)] [] 16 fl) [op, 2]))).map (fun t => t.pc.toNat)

theorem test_jmp_row : jumpRow 0x54 = [some 64, some 64, some 64, some 64] := by decide
theorem test_jeq_row : jumpRow 0x55 = [some 18, some 64, some 18, some 18] := by decide
theorem test_jne_row : jumpRow 0x56 = [some 64, some 18, some 64, some 64] := by decide
theorem test_jgt_row : jumpRow 0x57 = [some 18, some 18, some 64, some 18] := by decide
theorem test_jlt_row : jumpRow 0x58 = [some 18, some 18, some 18, some 64] := by decide
theorem test_jle_row : jumpRow 0x59 = [some 18, some 64, some 18, some 64] := by decide
theorem test_jge_row : jumpRow 0x5A = [some 18, some 64, some 64, some 18] := by decide
theorem test_jmp_sp : does (at_ (start [] [] 0 0) [0x54, 7]) (fun s => s.setPc 244) = true := by decide
theorem test_jeq_not_taken_at_254 : does (at_ (start [(2, 0x40)] [] 254 0) [0x55, 2])
    (fun s => s.setPc 256) = true := by decide

/-! ## 95_test_vectors.md 2.3 -/

theorem test_push_wraps : does (at_ (start [(0, 0xAB), (7, 0)] [] 16 0) [0x45, 0])
    (fun s => ((s.setReg 7 0xFF).store 0xFF 0xAB).setPc 18) = true := by decide
theorem test_push_r7 : does (at_ (start [] [] 0 0) [0x45, 7])
    (fun s => ((s.setReg 7 0xF3).store 0xF3 0xF3).setPc 2) = true := by decide
theorem test_pop_wraps : does (at_ (start [(7, 0xFF)] [(0xFF, 0xCD)] 0 0) [0x46, 0])
    (fun s => ((s.setReg 0 0xCD).setReg 7 0).setPc 2) = true := by decide
theorem test_pop_r7 : does (at_ (start [(7, 0xF3)] [(0xF3, 0x40)] 0 0) [0x46, 7])
    (fun s => (s.setReg 7 0x41).setPc 2) = true := by decide
theorem test_call : does (at_ (start [(1, 0x30)] [] 6 0) [0x50, 1])
    (fun s => ((s.setReg 7 0xF3).store 0xF3 8).setPc 48) = true := by decide
theorem test_call_r7 : does (at_ (start [] [] 6 0) [0x50, 7])
    (fun s => ((s.setReg 7 0xF3).store 0xF3 8).setPc 243) = true := by decide
theorem test_call_at_top : does (at_ (start [(1, 0x30)] [] 253 0) [0x50, 1])
      (fun s => ((s.setReg 7 0xF3).store 0xF3 0xFF).setPc 48) = true ∧
    does (at_ (start [(1, 0x30)] [] 254 0) [0x50, 1]) (fun s => s.latch (.addressOutOfRange 256 254)) = true ∧
    does (at_ (start [(1, 0x30)] [] 255 0) [0x50, 1]) (fun s => s.latch (.addressOutOfRange 256 255)) = true := by
  decide
theorem test_ret : does (at_ (start [(7, 0xF3)] [(0xF3, 8)] 48 0) [0x11])
    (fun s => (s.setReg 7 0xF4).setPc 8) = true := by decide
theorem test_ret_wraps : does (at_ (start [(7, 0xFF)] [(0xFF, 0x22)] 48 0) [0x11])
    (fun s => (s.setReg 7 0).setPc 34) = true := by decide
theorem test_int : does (at_ (start [] [] 0 0) [0x52, 0]) (fun s => s.latch (.unknownOpcode 0x52 0)) = true ∧
    does (at_ (start [] [] 255 0) [0x52]) (fun s => s.latch (.unknownOpcode 0x52 255)) = true := by decide
theorem test_iret : does (at_ (start [] [] 0 0) [0x13])
    (fun s => s.latch (.unknownOpcode 0x13 0)) = true := by decide

/-! ## 95_test_vectors.md 2.4 -/

theorem test_ldi_any_immediate : does (at_ (start [(0, 9)] [] 0 2) [0x82, 0, 0xC8])
    (fun s => (s.setReg 0 0xC8).setPc 3) = true := by decide
theorem test_ldi_sp : does (at_ (start [] [] 0 0) [0x82, 7, 0x80])
    (fun s => (s.setReg 7 0x80).setPc 3) = true := by decide
theorem test_ld_address_255 : does (at_ (start [(1, 0xFF)] [(0xFF, 0x77)] 0 0) [0x83, 0, 1])
    (fun s => (s.setReg 0 0x77).setPc 3) = true := by decide
theorem test_ld_reads_own_opcode : does (at_ (start [(1, 0x10)] [] 16 0) [0x83, 0, 1])
    (fun s => (s.setReg 0 0x83).setPc 19) = true := by decide
theorem test_st : does (at_ (start [(0, 0x80), (1, 0x2A)] [] 0 0) [0x84, 0, 1])
    (fun s => (s.store 0x80 0x2A).setPc 3) = true := by decide
theorem test_st_own_operand : does (at_ (start [(0, 2), (1, 0x55)] [] 0 0) [0x84, 0, 1])
    (fun s => (s.store 2 0x55).setPc 3) = true := by decide
theorem test_prn : does (at_ (start [(0, 0xFF)] [] 0 0) [0x47, 0])
    (fun s => (s.emit .prn 255).setPc 2) = true := by decide
theorem test_pra : does (at_ (start [(0, 0x41)] [] 0 0) [0x48, 0])
    (fun s => (s.emit .pra 65).setPc 2) = true := by decide
theorem test_nop_at_255 : does (at_ (start [] [] 255 1) [0x00]) (fun s => s.setPc 256) = true := by decide
theorem test_hlt_at_255 : does (at_ (start [] [] 255 0) [0x01])
    (fun s => s.setHalt.setPc 256) = true := by decide
theorem test_render : renderLog [⟨.prn, 17⟩, ⟨.prn, 0⟩, ⟨.prn, 255⟩, ⟨.pra, 65⟩]
    = ['1', '7', '\n', '0', '\n', '2', '5', '5', '\n', 'A'] := by decide

/-! ## The step's checks: 95_test_vectors.md 2.5, 60_exceptions.md R180 -/

theorem test_pc_256 : does (start [] [] 256 0) (fun s => s.latch (.addressOutOfRange 256 256)) = true := by
  decide
theorem test_unknown_before_operands : does (at_ (start [] [] 255 0) [0xFF])
    (fun s => s.latch (.unknownOpcode 0xFF 255)) = true := by decide
theorem test_operand_range_before_register : does (at_ (start [] [] 254 0) [0xA0, 9])
    (fun s => s.latch (.addressOutOfRange 256 254)) = true := by decide
theorem test_register_a_before_b : does (at_ (start [] [] 0 0) [0xA3, 8, 9])
    (fun s => s.latch (.invalidRegister 8 0)) = true := by decide
theorem test_register_before_division : does (at_ (start [] [] 0 0) [0xA3, 0, 9])
    (fun s => s.latch (.invalidRegister 9 0)) = true := by decide
theorem test_cause_codes : causeCode none = 0 ∧ causeCode (some (.unknownOpcode 0 0)) = 1 ∧
    causeCode (some (.addressOutOfRange 0 0)) = 2 ∧ causeCode (some (.divisionByZero 0)) = 3 ∧
    causeCode (some (.invalidRegister 0 0)) = 4 := by decide
theorem test_stopped_core : step State.reset.setHalt = .fault .coreHalted ∧
    step (State.reset.latch (.divisionByZero 0)) = .fault (.coreFaulted (.divisionByZero 0)) := ⟨rfl, rfl⟩

/-! ## The memory list's canonical form -/

theorem test_memory_canonical : Memory.write (Memory.write [] 5 1) 3 2 = [(3, 2), (5, 1)] ∧
    Memory.write [(3, 2), (5, 1)] 3 0 = [(5, 1)] ∧ Memory.wf [(5, 1), (3, 2)] = false ∧
    Memory.wf [(3, 0)] = false ∧ Memory.wf [(256, 1)] = false := by decide

/-! ## Witnesses: for each statement with hypotheses, states and operands that meet them, at the boundary
values of each clause -/

/-- Bytes that were placed stand where they were placed. -/
theorem bytesAt_of {s : State} {addr : Nat} {bs : List Byte} (h : addr + bs.length ≤ 256)
    (hb : ∀ k : Fin bs.length, Memory.read s.mem (addr + k) = bs[k]) : BytesAt s addr bs :=
  ⟨h, fun k hk => hb ⟨k, hk⟩⟩

theorem witness_LoadedImageStandsFromZero :
    (List.replicate 256 (1 : Byte)).length ≤ 256 ∧
    (List.replicate 255 (1 : Byte)).length ≤ (255 : Byte).toNat := by
  simp only [List.length_replicate]; decide
theorem witness_DivModResults : (start [(0, 17), (1, 5)] [] 0 0).reg 1 ≠ 0 := by decide
theorem witness_DivModByZeroRaises : (start [(0, 7)] [] 0 0).reg 1 = 0 := by decide
theorem witness_NotComplementsInPlace : ∃ s t u : State, s.reg 0 = 0xA5 ∧
    exec (.not (regByte 0)) s = .next t ∧ exec (.not (regByte 0)) t = .next u :=
  ⟨start [(0, 0xA5)] [] 0 0, _, _, rfl, rfl, rfl⟩
theorem witness_CmpWritesOneFlag :
    (let s := start [(0, 255), (1, 255)] [] 0 0; (s.reg 0).toNat = (s.reg 1).toNat) ∧
    (let s := start [(0, 255), (1, 254)] [] 0 0; (s.reg 0).toNat > (s.reg 1).toNat) ∧
    (let s := start [(0, 0), (1, 1)] [] 0 0; (s.reg 0).toNat < (s.reg 1).toNat) := by decide
theorem witness_ConditionalJumpsTestTheirFlags :
    ((start [] [] 0 1).fl.getLsbD 0 = true ∧ (start [] [] 0 0).fl.getLsbD 0 = false) ∧
    ((start [] [] 0 2).fl.getLsbD 1 = true ∧ ¬ (start [] [] 0 1).fl.getLsbD 1 = true) ∧
    ((start [] [] 0 4).fl.getLsbD 2 = true ∧ ¬ (start [] [] 0 1).fl.getLsbD 2 = true) ∧
    ((start [] [] 0 1).fl.getLsbD 2 = true ∨ (start [] [] 0 1).fl.getLsbD 0 = true) ∧
    (¬ ((start [] [] 0 2).fl.getLsbD 2 = true ∨ (start [] [] 0 2).fl.getLsbD 0 = true)) ∧
    ((start [] [] 0 1).fl.getLsbD 1 = true ∨ (start [] [] 0 1).fl.getLsbD 0 = true) ∧
    (¬ ((start [] [] 0 4).fl.getLsbD 1 = true ∨ (start [] [] 0 4).fl.getLsbD 0 = true)) := by decide
theorem witness_CompareThenJump :
    (∃ s t : State, exec (.cmp (regByte 0) (regByte 1)) s = .next t ∧ (s.reg 0).toNat = (s.reg 1).toNat) ∧
    (∃ s t : State, exec (.cmp (regByte 0) (regByte 1)) s = .next t ∧ (s.reg 0).toNat > (s.reg 1).toNat) ∧
    (∃ s t : State, exec (.cmp (regByte 0) (regByte 1)) s = .next t ∧ (s.reg 0).toNat < (s.reg 1).toNat) :=
  ⟨⟨start [(0, 255), (1, 255)] [] 0 0, _, rfl, by decide⟩, ⟨start [(0, 255), (1, 254)] [] 0 0, _, rfl, by decide⟩,
    ⟨start [(0, 0), (1, 1)] [] 0 0, _, rfl, by decide⟩⟩
/-- The register an operand names: both clauses, at the boundary. -/
theorem witness_PushStoresBelowTop : (6 : RegIdx) ≠ 7 ∧ (7 : RegIdx) = 7 := by decide
theorem witness_PopLoadsTop : (6 : RegIdx) ≠ 7 ∧ (7 : RegIdx) = 7 := by decide
theorem witness_StackPointerWrapsAndNeverRaises :
    (start [(7, 0)] [] 0 0).sp = 0 ∧ (start [(7, 255)] [] 0 0).sp = 255 ∧ (6 : RegIdx) ≠ 7 ∧
    (let s := start [(7, 0)] [] 253 0; s.pc.toNat + 2 ≤ 255 ∧ s.sp = 0) ∧
    (∃ t, exec (.push 7) State.reset = .next t ∧ t.fault = none) ∧
    (∃ t, exec (.pop 8) State.reset = .next t ∧ t.fault = some (.invalidRegister 8 0)) ∧
    (∃ t, exec .ret State.reset = .next t ∧ t.fault = none) :=
  ⟨by decide, by decide, by decide, by decide, ⟨_, rfl, rfl⟩, ⟨_, rfl, rfl⟩, ⟨_, rfl, rfl⟩⟩
theorem witness_CallPushesReturnAddress :
    (start [(1, 0x30)] [] 253 0).pc.toNat + 2 ≤ 255 ∧ (6 : RegIdx) ≠ 7 := by decide
theorem witness_CallAtTopRaises :
    let s := at_ (start [(1, 0x30)] [] 254 0) [0x50, 1]
    s.pc.toNat + 2 > 255 ∧ s.pc = 254 ∧ s.Running ∧ BytesAt s 254 [0x50, regByte 1] :=
  ⟨by decide, by decide, ⟨rfl, rfl⟩, bytesAt_of (by decide) (by decide)⟩
theorem witness_RetPopsProgramCounter : (6 : RegIdx) ≠ 7 ∧
    ∃ t, exec (.push (regByte 6)) State.reset = .next t := ⟨by decide, _, rfl⟩
theorem witness_PushPopCopies : (2 : RegIdx) ≠ 7 ∧ (3 : RegIdx) ≠ 7 ∧
    ∃ t u, exec (.push (regByte 2)) State.reset = .next t ∧ exec (.pop (regByte 3)) t = .next u :=
  ⟨by decide, by decide, _, _, rfl, rfl⟩
theorem witness_CallRetResumesAfterCall :
    let s := at_ (start [(1, 6)] [(6, 0x11)] 253 0) [0x50, 1]
    s.Running ∧ s.pc.toNat ≤ 253 ∧ BytesAt s s.pc.toNat [0x50, regByte 1] ∧
      ∃ t, step s = .next t ∧ OpcodeAt t 0x11 :=
  ⟨⟨rfl, rfl⟩, by decide, bytesAt_of (by decide) (by decide), _, rfl, by decide, by decide⟩
theorem witness_IntIretRaiseUnknownOpcode :
    (let s := at_ (start [] [] 255 0) [0x52]; s.Running ∧ OpcodeAt s 0x52) ∧
    (let s := at_ (start [] [] 0 0) [0x13]; s.Running ∧ OpcodeAt s 0x13) := by
  unfold State.Running OpcodeAt; decide
theorem witness_AsciiRecordsAreTheirBytes : (127 : Byte).toNat < 128 ∧ 128 ≤ (128 : Byte).toNat := by decide
theorem witness_NopAndHlt : ∃ t, exec .hlt (start [] [] 255 0) = .next t := ⟨_, rfl⟩
theorem witness_StepRunsDecodedInstruction :
    let s := at_ (start [] [] 253 0) [0xA0, 0, 1]
    s.Running ∧ decode (fetchBytes s) = .ok (.add 0 1, []) := by
  unfold State.Running; decide
theorem witness_StepRunsEncodedBytesAtPc :
    let s := at_ (start [] [] 253 0) [0xA0, 0, 1]
    s.Running ∧ BytesAt s s.pc.toNat (encode (.add 0 1)) :=
  ⟨⟨rfl, rfl⟩, bytesAt_of (by decide) (by decide)⟩
theorem witness_UnknownOpcodeDependsOnByteAlone :
    (let s := at_ (start [] [] 255 0) [0xFF]; s.Running ∧ OpcodeAt s 0xFF ∧ 0xFF ∉ functioningOpcodes) ∧
    (let s := start [] [] 0 0; s.Running ∧ OpcodeAt s 0x00 ∧ 0x00 ∈ functioningOpcodes) := by
  unfold State.Running OpcodeAt; decide
theorem witness_FetchOutOfRangeRaises :
    (let s := start [] [] 256 0; s.Running ∧ s.pc.toNat > 255) ∧
    (let s := at_ (start [] [] 254 0) [0xA0, 0]
     s.Running ∧ OpcodeAt s 0xA0 ∧ 0xA0 ∈ functioningOpcodes ∧ s.pc.toNat + opN 0xA0 > 255) ∧
    (let s := at_ (start [] [] 255 0) [0x45]
     s.Running ∧ OpcodeAt s 0x45 ∧ 0x45 ∈ functioningOpcodes ∧ s.pc.toNat + opN 0x45 > 255) := by
  unfold State.Running OpcodeAt; decide
theorem witness_InvalidOperandRaises :
    (Instr.add 0 8).regOperands.find? (fun b => decide (b.toNat > 7)) = some 8 ∧
    (Instr.add 255 8).regOperands.find? (fun b => decide (b.toNat > 7)) = some 255 ∧
    (Instr.push 8).regOperands.find? (fun b => decide (b.toNat > 7)) = some 8 := by decide
theorem witness_ExactlyRunningCoresStep : State.reset.Running ∧ ¬ State.reset.setHalt.Running ∧
    ¬ (State.reset.latch (.divisionByZero 0)).Running := by
  unfold State.Running; decide
theorem witness_RaisingStepChangesOnlyLatch :
    ∃ t, step (at_ State.reset [0xFF]) = .next t ∧ t.fault ≠ none := ⟨_, rfl, by decide⟩
theorem witness_OnlyListedRegistersChange :
    (∃ t, exec (.inc 0) State.reset = .next t ∧ t.reg 0 ≠ State.reset.reg 0) ∧
    (∃ t, exec .ret State.reset = .next t ∧ t.reg 7 ≠ State.reset.reg 7) :=
  ⟨⟨_, rfl, by decide⟩, ⟨_, rfl, by decide⟩⟩
theorem witness_OnlyCmpChangesFlags :
    ∃ t, exec (.cmp 0 1) State.reset = .next t ∧ t.fl ≠ State.reset.fl := ⟨_, rfl, by decide⟩
theorem witness_OnlyHltChangesHalt :
    ∃ t, exec .hlt State.reset = .next t ∧ t.halt ≠ State.reset.halt := ⟨_, rfl, by decide⟩
theorem witness_OnlyStorePushCallChangeMemory :
    (∃ t, exec (.st 0 7) State.reset = .next t ∧ t.load 0 ≠ State.reset.load 0) ∧
    (∃ t, exec (.push 7) State.reset = .next t ∧ t.load 0xF3 ≠ State.reset.load 0xF3) ∧
    (∃ t, exec (.call 0) State.reset = .next t ∧ t.load 0xF3 ≠ State.reset.load 0xF3) :=
  ⟨⟨_, rfl, by decide⟩, ⟨_, rfl, by decide⟩, ⟨_, rfl, by decide⟩⟩
theorem witness_OnlyPrintExtendsLog :
    (∃ t, exec (.prn 0) State.reset = .next t ∧ t.out ≠ State.reset.out) ∧
    (∃ t, exec (.pra 0) State.reset = .next t ∧ t.out ≠ State.reset.out) :=
  ⟨⟨_, rfl, by decide⟩, ⟨_, rfl, by decide⟩⟩
theorem witness_DefaultAdvanceIsLength :
    (opP (Instr.add 0 1).opcode = false ∧ ∃ t, exec (.add 0 1) State.reset = .next t ∧ t.fault = none) ∧
    (opP (Instr.add 0 8).opcode = false ∧ ∃ t, exec (.add 0 8) State.reset = .next t ∧ t.fault ≠ none) :=
  ⟨⟨by decide, _, rfl, rfl⟩, ⟨by decide, _, rfl, by decide⟩⟩
theorem witness_StoreIsFetchedByNextStep :
    (let s := at_ (start [(0, 255), (1, 0xFF)] [] 252 0) [0x84, 0, 1]
     s.Running ∧ BytesAt s s.pc.toNat [0x84, regByte 0, regByte 1] ∧
       (s.reg 0).toNat = s.pc.toNat + 3 ∧ s.reg 1 ∉ functioningOpcodes) ∧
    (let s := at_ (start [(0, 3), (1, 0x01)] [] 0 0) [0x84, 0, 1]
     s.Running ∧ BytesAt s s.pc.toNat [0x84, regByte 0, regByte 1] ∧
       (s.reg 0).toNat = s.pc.toNat + 3 ∧ s.reg 1 = 0x01) :=
  ⟨⟨⟨rfl, rfl⟩, bytesAt_of (by decide) (by decide), by decide, by decide⟩,
    ⟨⟨rfl, rfl⟩, bytesAt_of (by decide) (by decide), by decide, by decide⟩⟩
theorem witness_ConsoleLogIsNeverRead : SameButOut State.reset (State.reset.emit .prn 1) ∧
    ∃ t, step State.reset = .next t := ⟨⟨rfl, rfl, rfl, rfl, rfl, rfl⟩, _, rfl⟩
theorem witness_DecodeAndEncodeAgree : decode [0xA0, 0, 8, 1] = .ok (.add 0 8, [1]) := by decide
theorem witness_OtherOpcodesAreRefused : opN 0xC0 = 3 ∧
    (0x52 : Byte) ∈ functioningOpcodes ++ [0x52, 0x13] ∧
    (0x02 : Byte) ∉ functioningOpcodes ++ [0x52, 0x13] := by decide

/-- The reset state, loaded with bytes from address 0. -/
def loaded (image : List Byte) : State := loadImage image State.reset

theorem reset_inv : CoreInv State.reset :=
  ⟨by decide, by decide, by decide, by decide, fun h => absurd h (by decide), trivial⟩
theorem loaded_inv {image : List Byte} (hw : Memory.wf (loaded image).mem = true)
    (hp : (loaded image).pc = 0) (hf : (loaded image).fl = 0) (hh : (loaded image).halt = false)
    (hl : (loaded image).fault = none) : CoreInv (loaded image) :=
  ⟨hw, by rw [hp]; decide, .inl hf, fun h => absurd (hh.symm.trans h) (by decide),
    fun h => absurd (hh.symm.trans h) (by decide), by rw [LatchExplained, hl]; trivial⟩
theorem witness_EveryStepKeepsTheInvariant : CoreInv State.reset ∧ ∃ t, step State.reset = .next t :=
  ⟨reset_inv, _, rfl⟩
/-- A running state for each of the three ends: HLT ends well, 0xFF ends badly, JMP R0 at 0 goes on. -/
theorem witness_RunEndsWellOrBadly :
    (CoreInv (loaded [0x01]) ∧ (loaded [0x01]).Running ∧ (run 1 (loaded [0x01])).EndedWell) ∧
    (CoreInv (loaded [0xFF]) ∧ (loaded [0xFF]).Running ∧ (run 1 (loaded [0xFF])).EndedBadly) ∧
    (CoreInv (loaded [0x54, 0]) ∧ (loaded [0x54, 0]).Running ∧ (run 1 (loaded [0x54, 0])).Running) :=
  ⟨⟨loaded_inv (by decide) rfl rfl rfl rfl, ⟨rfl, rfl⟩, rfl, rfl⟩,
    ⟨loaded_inv (by decide) rfl rfl rfl rfl, ⟨rfl, rfl⟩, rfl, by decide⟩,
    ⟨loaded_inv (by decide) rfl rfl rfl rfl, ⟨rfl, rfl⟩, rfl, rfl⟩⟩
theorem witness_RunComposesAndSettles : ¬ (run 1 (loaded [0x01])).Running := by
  unfold State.Running; decide
/-- JMP R0 at address 0 with R0 = 0 runs for ever. -/
theorem witness_EndlessRunCycles :
    CoreInv (loaded [0x54, 0]) ∧ ∀ n, (run n (loaded [0x54, 0])).Running := by
  have hs : step (loaded [0x54, 0]) = .next (loaded [0x54, 0]) := rfl
  have hr : ∀ n, run n (loaded [0x54, 0]) = loaded [0x54, 0] := by
    intro n
    induction n with
    | zero => rfl
    | succ n ih => rw [run, hs]; exact ih
  exact ⟨loaded_inv (by decide) rfl rfl rfl rfl, fun n => by rw [hr n]; exact ⟨rfl, rfl⟩⟩

/-! ## The host's windows: R201, R204 to R206, D21, D22, D26 -/

/-- A session whose core is loaded and, if `b`, started. -/
def session (image : List Byte) (b : Bool) : Session := { core := loaded image, started := b }

theorem test_window_before_run :
    hostLoad 5 7 (session [0x01] false) = .ok { session [0x01] false with core := (loaded [0x01]).store 5 7 } ∧
    coreStep (session [0x01] false) = .error .beforeRun ∧ hostRead (session [0x01] false) = .error .beforeRun :=
  ⟨rfl, rfl, rfl⟩
theorem test_window_during_run :
    hostLoad 5 7 (session [0x01] true) = .error .duringRun ∧ hostRun (session [0x01] true) = .error .duringRun ∧
    hostRead (session [0x01] true) = .error .duringRun := ⟨rfl, rfl, rfl⟩
theorem test_window_after_stop : ∀ p, Session.reset.acts [.load 0 0x01, .run, .step] = .ok p →
    p.core.halt = true ∧ hostRead p = .ok p.core ∧ hostLoad 5 7 p = .error .afterStop ∧
    coreStep p = .error .afterStop ∧ hostRun p = .ok p ∧ hostReset p = Session.reset := by
  intro p h
  obtain rfl := Except.ok.inj h
  exact ⟨rfl, rfl, rfl, rfl, rfl, rfl⟩

theorem witness_MovesKeepToTheirWindows :
    ((session [0x01] false).core.Running ∧ (session [0x01] false).started = false) ∧
    ((session [0x01] true).core.Running ∧ (session [0x01] true).started = true) ∧
    ¬ ({ core := State.reset.setHalt, started := true } : Session).core.Running :=
  ⟨⟨⟨rfl, rfl⟩, rfl⟩, ⟨⟨rfl, rfl⟩, rfl⟩, fun h => nomatch h.1⟩
/-- LDI R0,5 then HLT: the core is still running before each of two steps. -/
theorem witness_BootSequenceRunsTheImage : [0x82, 0, 5, (0x01 : Byte)].length ≤ 256 ∧
    ∀ k < 2, (run k (loadImage [0x82, 0, 5, 0x01] State.reset)).Running := by
  unfold State.Running; decide
theorem witness_OnlyStepsBetweenRunAndReset :
    (session [0x01] true).started = true ∧ Move.reset ∉ [Move.step, .run, .read] ∧
      ∃ q, (session [0x01] true).acts [.step, .run, .read] = .ok q := ⟨rfl, by decide, _, rfl⟩
/-- A session for each kind of move that is made: the invariant holds of it, and the move is made. -/
theorem witness_EveryMoveKeepsTheSessionInvariant :
    (SessionInv Session.reset ∧ (∃ q, Session.reset.act (.load 255 0xFF) = .ok q) ∧
      ∃ q, Session.reset.act .run = .ok q) ∧
    (let p : Session := { core := State.reset, started := true }
     SessionInv p ∧ (∃ q, p.act .step = .ok q) ∧ ∃ q, p.act .reset = .ok q) :=
  ⟨⟨⟨⟨[], 0, rfl, fun _ => rfl⟩, reset_inv⟩, ⟨_, rfl⟩, _, rfl⟩,
    ⟨⟨[], 0, rfl, fun _ => rfl⟩, reset_inv⟩, ⟨_, rfl⟩, _, rfl⟩
theorem witness_SessionsAreRunsOfWrittenResets :
    ∃ p, Session.reset.acts [.load 0 0x00, .load 1 0x01, .run, .step, .step, .read] = .ok p := ⟨_, rfl⟩

end Sys2Proof.Tests
end

section
/-! SUPPORT. Sequences of byte writes (20_memory.md R53): what a read sees after them, and that they
change memory only. -/

namespace Sys2Proof.Machine

/-- The writes `ws`, each an address and a value, made one after another, the head of the list first. -/
def State.storeAll (s : State) (ws : List (Byte × Byte)) : State :=
  ws.foldl (fun u w => u.store w.1 w.2) s

variable (s : State)

@[simp] theorem State.storeAll_nil : s.storeAll [] = s := rfl

@[simp] theorem State.storeAll_concat (ws : List (Byte × Byte)) (w : Byte × Byte) :
    s.storeAll (ws ++ [w]) = (s.storeAll ws).store w.1 w.2 :=
  List.foldl_concat ..

/-- The induction takes the last write off, because that is the one a read looks at first. -/
theorem State.load_storeAll (ws : List (Byte × Byte)) (c : Byte) :
    (s.storeAll ws).load c =
      (ws.reverse.find? (fun w => w.1 == c)).elim (s.load c) Prod.snd := by
  induction ws using List.reverseRecOn with
  | nil => rfl
  | append_singleton ws w ih =>
    rw [State.storeAll_concat, State.load_store, List.reverse_concat, ih]
    by_cases h : w.1 = c
    · simp [h]
    · have hc : c ≠ w.1 := Ne.symm h
      simp [h, hc]

theorem State.storeAll_eq_with_mem (ws : List (Byte × Byte)) :
    s.storeAll ws = { s with mem := (s.storeAll ws).mem } := by
  induction ws using List.reverseRecOn with
  | nil => rfl
  | append_singleton ws w ih =>
    rw [State.storeAll_concat, State.store, ih]

end Sys2Proof.Machine
end

section
namespace Sys2Proof.Machine

/-- Settles O2, by induction on the list of writes from its end, where the latest write stands (R53). -/
theorem latestWriteIsRead : Obligations.LatestWriteIsRead := by
  intro s ws c t
  refine ⟨(s.load_storeAll ws c).trans ?_, s.storeAll_eq_with_mem ws⟩
  cases ws.reverse.find? (fun w => w.1 == c) with
  | none => rfl
  | some w => rfl

end Sys2Proof.Machine
end

section
/-! SUPPORT. The ALU shapes of 41_alu.md R123 on registers: an instruction whose meaning is `aluBinary g` or
`aluUnary g` has the result, the advance and the frame of `BinaryResult` or `UnaryResult` as soon as `g` computes
the number asked for. What the result functions of R124 compute is said beside it. -/

namespace Sys2Proof.Machine

open Sys2Proof.Claims

/-! ## The result functions, on numbers (R124) -/

theorem aluAdd_toNat (u v : Byte) : (aluAdd u v).toNat = (u.toNat + v.toNat) % 256 :=
  BitVec.toNat_ofNat ..

theorem aluMul_toNat (u v : Byte) : (aluMul u v).toNat = (u.toNat * v.toNat) % 256 :=
  BitVec.toNat_ofNat ..

theorem aluAnd_toNat (u v : Byte) : (aluAnd u v).toNat = u.toNat &&& v.toNat :=
  BitVec.toNat_and ..

theorem aluOr_toNat (u v : Byte) : (aluOr u v).toNat = u.toNat ||| v.toNat :=
  BitVec.toNat_or ..

theorem aluXor_toNat (u v : Byte) : (aluXor u v).toNat = u.toNat ^^^ v.toNat :=
  BitVec.toNat_xor ..

theorem aluInc_toNat (u : Byte) : (aluInc u).toNat = (u.toNat + 1) % 256 :=
  BitVec.toNat_ofNat ..

/-! ## The shared shapes (R123) -/

/-- The frame of every ALU instruction: the register written is the only one that changes. -/
theorem quiet_setReg_advance (a : RegIdx) (v : Byte) (n : Nat) (s : State) :
    Quiet [a] [] s ((s.setReg a v).advance n) := by
  refine ⟨⟨fun r hr => ?_, fun c _ => ?_, ?_, ?_⟩, ?_, ?_⟩
  · have hne : r ≠ a := List.ne_of_not_mem_cons hr
    rw [State.reg_advance, State.reg_setReg_other s v hne]
  all_goals simp

theorem binaryResult_of_aluBinary {mk : Byte → Byte → Instr} {f : Nat → Nat → Nat}
    {g : Byte → Byte → Byte} (hexec : ∀ a b s, exec (mk a b) s = aluBinary g a b s)
    (hg : ∀ u v, (g u v).toNat = f u.toNat v.toNat) : BinaryResult mk f := by
  intro a b s
  refine ⟨_, (hexec ..).trans (aluBinary_regs s g a b), ?_, ?_, quiet_setReg_advance ..⟩
  · rw [State.reg_advance, State.reg_setReg_same, hg]
  · exact State.advance_pc_add ..

theorem unaryResult_of_aluUnary {mk : Byte → Instr} {f : Nat → Nat} {g : Byte → Byte}
    (hexec : ∀ a s, exec (mk a) s = aluUnary g a s)
    (hg : ∀ u, (g u).toNat = f u.toNat) : UnaryResult mk f := by
  intro a s
  refine ⟨_, (hexec ..).trans (aluUnary_reg s g a), ?_, ?_, quiet_setReg_advance ..⟩
  · rw [State.reg_advance, State.reg_setReg_same, hg]
  · exact State.advance_pc_add ..

end Sys2Proof.Machine
end

section
namespace Sys2Proof.Machine

/-- Settles O4: each of the five is `aluBinary` of its result function (R110, R112, R117 to R119). -/
theorem addMulAndOrXorResults : Obligations.AddMulAndOrXorResults :=
  ⟨fun _ _ => rfl, binaryResult_of_aluBinary (fun _ _ _ => rfl) aluAdd_toNat,
    fun _ _ => rfl, binaryResult_of_aluBinary (fun _ _ _ => rfl) aluMul_toNat,
    fun _ _ => rfl, binaryResult_of_aluBinary (fun _ _ _ => rfl) aluAnd_toNat,
    fun _ _ => rfl, binaryResult_of_aluBinary (fun _ _ _ => rfl) aluOr_toNat,
    fun _ _ => rfl, binaryResult_of_aluBinary (fun _ _ _ => rfl) aluXor_toNat⟩

/-- Settles O8: both are `aluUnary` of their result functions (R115, R116). -/
theorem incDecResults : Obligations.IncDecResults :=
  ⟨fun _ => rfl, unaryResult_of_aluUnary (fun _ _ => rfl) aluInc_toNat,
    fun _ => rfl, unaryResult_of_aluUnary (fun _ _ => rfl) aluDec_toNat⟩

end Sys2Proof.Machine
end

section
/-! SUPPORT. What a jump does on a register (42_compare_branch.md): JMP is the jump whose condition always
holds (R131), and setting `pc` disturbs nothing else. -/

namespace Sys2Proof.Machine

theorem exec_jmp_reg (a : RegIdx) (s : State) :
    exec (.jmp (regByte a)) s = .next (s.setPc (zext9 (s.reg a))) :=
  jumpIf_reg s true a

/-- The frame of every jump taken: `pc` alone changes (R139). -/
theorem quiet_setPc (p : PcWord) (s : State) : Quiet [] [] s (s.setPc p) :=
  ⟨⟨fun r _ => s.reg_setPc p r, fun c _ => s.load_setPc p c, rfl, rfl⟩, rfl, rfl⟩

end Sys2Proof.Machine
end

section
namespace Sys2Proof.Machine

/-- Settles O11: JMP sets `pc` to the zero-extended register, which is the same number (R131). -/
theorem jmpGoesToRegister : Obligations.JmpGoesToRegister :=
  ⟨fun _ => rfl, fun a s => ⟨_, exec_jmp_reg a s, zext9_toNat (s.reg a), quiet_setPc _ s⟩⟩

end Sys2Proof.Machine
end

section
/-! SUPPORT. What PUSH and RET do (43_stack_call.md R145, R148): the next state of each as one expression,
the frame of RET, and that a pop's step of the stack pointer undoes a push's. -/

namespace Sys2Proof.Machine

open Sys2Proof.Claims

variable (s : State)

/-! ## The two meanings -/

/-- The register pushed is read after the decrement (R8, R145). -/
theorem exec_push_reg (a : RegIdx) :
    exec (.push (regByte a)) s = .next ((s.spDec.store s.spDec.sp (s.spDec.reg a)).advance 2) :=
  withReg_regByte a s _

theorem exec_ret : exec .ret s = .next (s.setPc (zext9 (s.load s.sp))).spInc := rfl

/-! ## The registers and the stack pointer -/

theorem State.regs_ext {s t : State} (h : ∀ q, t.reg q = s.reg q) : t.regs = s.regs :=
  Vector.ext fun q hq => h ⟨q, hq⟩

theorem State.reg_spDec_other {a : RegIdx} (h : a ≠ Config.spIndex) : s.spDec.reg a = s.reg a :=
  (s.reg_spDec a).trans (if_neg h)

theorem State.spInc_sp_toNat : s.spInc.sp.toNat = (s.sp.toNat + 1) % 256 := by
  rw [State.spInc_sp]
  exact BitVec.toNat_add ..

/-- A pop's step of the stack pointer undoes a push's, at both ends too (R152). -/
theorem State.spInc_regs_of_spDec {s t : State} (h : t.regs = s.spDec.regs) :
    t.spInc.regs = s.regs := by
  have hreg (q : RegIdx) : t.reg q = s.spDec.reg q := congrArg (·[q]) h
  refine State.regs_ext fun q => ?_
  rw [State.reg_spInc]
  by_cases hq : q = Config.spIndex
  · have hsp : t.sp = s.sp - 1 := (hreg Config.spIndex).trans s.spDec_sp
    rw [if_pos hq, hsp, BitVec.sub_add_cancel, hq, State.sp]
  · rw [if_neg hq, hreg, s.reg_spDec_other hq]

/-- The frame of a step of the stack pointer up: R7 alone changes. -/
theorem quiet_spInc : Quiet [7] [] s s.spInc := by
  refine ⟨⟨fun r hr => ?_, fun c _ => s.load_spInc c, rfl, rfl⟩, rfl, rfl⟩
  have hne : r ≠ Config.spIndex := List.ne_of_not_mem_cons hr
  rw [State.reg_spInc, if_neg hne]

end Sys2Proof.Machine
end

section
namespace Sys2Proof.Machine

open Sys2Proof.Claims

/-- R148's two lines. Setting `pc` first leaves the frame that of the stack pointer's step. -/
theorem ret_pops_top (s : State) : ∃ t, exec .ret s = .next t ∧
    t.pc.toNat = (s.load s.sp).toNat ∧ t.sp.toNat = (s.sp.toNat + 1) % 256 ∧ Quiet [7] [] s t :=
  ⟨_, exec_ret s, zext9_toNat (s.load s.sp), State.spInc_sp_toNat _, quiet_spInc (s.setPc _)⟩

/-- R148's indirect jump: the top of stack that RET takes as the next address is the register just pushed,
and RET's step of R7 restores what PUSH's took. -/
theorem push_ret_jumps {a : RegIdx} {s t : State} (ha : a ≠ Config.spIndex)
    (h : exec (.push (regByte a)) s = .next t) :
    ∃ u, exec .ret t = .next u ∧ u.pc.toNat = (s.reg a).toNat ∧ u.regs = s.regs := by
  rw [exec_push_reg, s.reg_spDec_other ha] at h
  cases h
  refine ⟨_, exec_ret _, ?_, State.spInc_regs_of_spDec rfl⟩
  rw [State.spInc_pc, State.setPc_pc, zext9_toNat]
  exact congrArg BitVec.toNat (State.load_store_same s.spDec s.spDec.sp (s.reg a))

/-- Settles O19: RET reads the top of stack and steps past it, and after a PUSH that top is the register
pushed (R148). -/
theorem retPopsProgramCounter : Obligations.RetPopsProgramCounter :=
  ⟨rfl, ret_pops_top, fun _ _ _ ha h => push_ret_jumps ha h⟩

end Sys2Proof.Machine
end

section
/-! SUPPORT. The decimal digits of a number below 1000 (70_reset_and_hazards.md R207), one case for each
number of digits, and the character of a PRA record. -/

namespace Sys2Proof.Machine

/-- The number that decimal digits, the highest first, stand for. -/
def ofDecimal (ds : List Nat) : Nat := ds.foldl (fun n d => 10 * n + d) 0

theorem decimalDigits_lt_ten {n : Nat} (h : n < 1000) : ∀ d ∈ decimalDigits n, d < 10 := by
  fun_cases decimalDigits n <;> simp <;> omega

theorem decimalDigits_ne_nil (n : Nat) : decimalDigits n ≠ [] := by
  fun_cases decimalDigits n <;> simp

/-- No leading zeros: a number of two digits is at least 10, one of three at least 100. -/
theorem decimalDigits_head_ne_zero {n : Nat} (h : 1 < (decimalDigits n).length) :
    (decimalDigits n).head? ≠ some 0 := by
  revert h
  fun_cases decimalDigits n <;> simp <;> omega

theorem ofDecimal_decimalDigits (n : Nat) : ofDecimal (decimalDigits n) = n := by
  fun_cases decimalDigits n <;> simp [ofDecimal] <;> omega

/-- Every byte is a code point, so the character of a PRA record has the value as its code point. -/
theorem char_ofNat_byte_toNat (v : Byte) : (Char.ofNat v.toNat).toNat = v.toNat := by
  have hv : v.toNat.isValidChar := .inl (v.isLt.trans (by decide))
  rw [Char.toNat_ofNat, if_pos hv]

end Sys2Proof.Machine
end

section
/-! SUPPORT. What the instructions of 44_misc.md do on registers: the record PRN and PRA append (R163, R164),
the byte LDI loads (R160), the advance as a change of `pc` alone (R165, R166), and that a stopped core's run
goes nowhere (R101). -/

namespace Sys2Proof.Machine

variable (s : State)

theorem exec_ldi_reg (a : RegIdx) (imm : Byte) :
    exec (.ldi (regByte a) imm) s = .next ((s.setReg a imm).advance 3) :=
  withReg_regByte a s _

theorem exec_hlt : exec .hlt s = .next (s.setHalt.advance 1) := rfl

/-- The frame of a print: the console log and `pc` alone change. -/
theorem untouched_emit_advance (k : OutKind) (v : Byte) (n : Nat) :
    Untouched [] [] s ((s.emit k v).advance n) :=
  ⟨fun _ _ => rfl, fun _ _ => rfl, rfl, rfl⟩

/-- What PRN and PRA share; they differ in the kind of the record. -/
theorem emitReg_appends_record (k : OutKind) (a : RegIdx) : ∃ t, emitReg k (regByte a) s = .next t ∧
    t.out = s.out ++ [⟨k, s.reg a⟩] ∧ t.pc = s.pc + 2 ∧ t.fl = s.fl ∧ Untouched [] [] s t :=
  ⟨_, emitReg_reg s k a, rfl, State.advance_pc_add .., rfl, untouched_emit_advance ..⟩

theorem State.advance_eq_with_pc (n : Nat) :
    s.advance n = { s with pc := s.pc + BitVec.ofNat 9 n } :=
  congrArg s.setPc (s.advance_pc_add n)

/-- A stopped core takes no step, so no budget changes it. -/
theorem run_of_not_running {s : State} (h : ¬ s.Running) (n : Nat) : run n s = s := by
  cases n with
  | zero => rfl
  | succ n =>
    rw [run]
    split
    · next hs => exact absurd (running_of_step hs) h
    · rfl
    · rfl

theorem not_running_of_hlt {s t : State} (h : exec .hlt s = .next t) : ¬ t.Running := by
  rw [exec_hlt] at h
  cases h
  rintro ⟨hhalt, -⟩
  exact absurd hhalt (by simp)

end Sys2Proof.Machine
end

section
namespace Sys2Proof.Machine

/-- R207: what a PRN record's characters are, as digits. -/
theorem renderRecord_prn_decimal (v : Byte) : ∃ ds : List Nat, (∀ d ∈ ds, d < 10) ∧ ds ≠ [] ∧
    (1 < ds.length → ds.head? ≠ some 0) ∧ ofDecimal ds = v.toNat ∧
    renderRecord ⟨.prn, v⟩ = ds.map digitChar ++ [Char.ofNat 10] :=
  have hv : v.toNat < 1000 := v.isLt.trans (by decide)
  ⟨decimalDigits v.toNat, decimalDigits_lt_ten hv, decimalDigits_ne_nil _,
    decimalDigits_head_ne_zero, ofDecimal_decimalDigits _, rfl⟩

/-- Settles O25: both are `emitReg` of their kind of record (R163, R164), and the digits of the value are
those of R207. -/
theorem printAppendsOneRecord : Obligations.PrintAppendsOneRecord :=
  ⟨fun _ => rfl, fun _ => rfl, fun a s => emitReg_appends_record s .prn a,
    fun a s => emitReg_appends_record s .pra a, renderRecord_prn_decimal,
    fun v => ⟨rfl, char_ofNat_byte_toNat v⟩⟩

/-- Settles O23: the immediate is written to the register as it stands (R160). -/
theorem ldiLoadsImmediate : Obligations.LdiLoadsImmediate := by
  refine ⟨fun _ _ => rfl, fun a imm s =>
    ⟨_, exec_ldi_reg s a imm, ?_, State.advance_pc_add .., quiet_setReg_advance ..⟩⟩
  rw [State.reg_advance, State.reg_setReg_same]

/-- Settles O27: both advance `pc` by one (R165, R166), and the core HLT leaves is stopped. -/
theorem nopAndHlt : Obligations.NopAndHlt := by
  refine ⟨rfl, rfl, fun s => ?_, fun s => ?_, fun s t h => ?_⟩
  · exact congrArg Host.Outcome.next (s.advance_eq_with_pc 1)
  · exact congrArg Host.Outcome.next (s.setHalt.advance_eq_with_pc 1)
  · have hstop : ¬ t.Running := not_running_of_hlt h
    exact ⟨fun _ hu => hstop (running_of_step hu), run_of_not_running hstop⟩

end Sys2Proof.Machine
end

section
/-! SUPPORT. The decoder and the encoder as inverses of each other (30_encoding.md R70, R78), and which bytes
begin an instruction (R80). -/

namespace Sys2Proof

open Sys2Proof.Machine

/-- Each constructor's opcode is looked up in the table and gives the constructor back. -/
theorem decode_encode_append (i : Instr) (rest : List Byte) :
    decode (encode i ++ rest) = .ok (i, rest) := by
  cases i <;> rfl

theorem decode_encode (i : Instr) : decode (encode i) = .ok (i, []) := by
  simpa using decode_encode_append i []

/-- The converse needs no table: a row found is sound, so its instruction is encoded as the bytes read. -/
theorem encode_append_of_decode {bs rest : List Byte} {i : Instr} (h : decode bs = .ok (i, rest)) :
    encode i ++ rest = bs := by
  revert h
  fun_cases decode bs <;> rintro ⟨⟩
  case case3 he | case4 he | case5 he => simp [(lookupOp_sound he).2]

/-- The bytes that begin an instruction: the functioning opcodes and the two reserved ones (R78, R81). -/
theorem lookupOp_isSome_iff (op : Byte) :
    (lookupOp op).isSome ↔ op ∈ functioningOpcodes ++ [0x52, 0x13] := by
  simp [lookupOp_isSome, reservedOp]

theorem decode_of_lookupOp_none {op : Byte} (h : lookupOp op = none) (rest : List Byte) :
    decode (op :: rest) = .error (.unknownOpcode op) := by
  simp [decode, h]

/-- Two operand bytes are enough for every format (R70). -/
theorem decode_ok_of_lookupOp {op : Byte} {e : Entry} (h : lookupOp op = some e) (a b : Byte)
    (rest : List Byte) : ∃ i r, decode (op :: a :: b :: rest) = .ok (i, r) := by
  cases e <;> simp [decode, h]

theorem opN_lt_three_of_mem {op : Byte} (h : op ∈ functioningOpcodes ++ [0x52, 0x13]) : opN op < 3 := by
  obtain ⟨e, he⟩ := Option.isSome_iff_exists.1 ((lookupOp_isSome_iff op).2 h)
  rw [← (lookupOp_sound he).1]
  cases e <;> simp [Entry.operands]

theorem not_mem_of_lookupOp_none {op : Byte} (h : op ∉ functioningOpcodes ++ [0x52, 0x13]) :
    lookupOp op = none := by
  simpa using mt (lookupOp_isSome_iff op).1 h

end Sys2Proof
end

section
namespace Sys2Proof.Machine

/-- Settles O43: one direction by the table's rows one after another, the other by their soundness. -/
theorem decodeAndEncodeAgree : Obligations.DecodeAndEncodeAgree :=
  ⟨decode_encode_append, fun _ _ _ => encode_append_of_decode⟩

/-- Settles O44: the bytes that begin an instruction are those the lookup finds, and the formats have at most
two operands. -/
theorem otherOpcodesAreRefused : Obligations.OtherOpcodesAreRefused := by
  refine ⟨by decide, rfl, fun op h3 hmem => ?_, fun op rest => ⟨fun hmem => ?_, fun hnot => ?_⟩⟩
  · exact absurd h3 (opN_lt_three_of_mem hmem).ne
  · obtain ⟨e, he⟩ := Option.isSome_iff_exists.1 ((lookupOp_isSome_iff op).2 hmem)
    exact decode_ok_of_lookupOp he 0 0 rest
  · exact decode_of_lookupOp_none (not_mem_of_lookupOp_none hnot) rest

/-- Settles O45: bits 5 and 4 of each instruction's opcode (R73, R74, R79). -/
theorem opcodeFieldsNameTheClasses : Obligations.OpcodeFieldsNameTheClasses := by
  intro i
  cases i <;> simp [Instr.opcode, encode, opA, opP]

/-- Settles O46: the words are read as the table has them (R78). -/
theorem tableWordsDecode : Obligations.TableWordsDecode := by
  unfold Obligations.TableWordsDecode
  decide

end Sys2Proof.Machine
end

section
/-! SUPPORT. The step by the byte at `pc` (40_control_unit.md R90 to R94): it runs what is decoded there, and
the checks before the handler raise on that byte and its address alone. -/

namespace Sys2Proof.Machine

variable {s : State}

theorem step_of_decode {i : Instr} {rest : List Byte} (hr : s.Running)
    (hd : decode (fetchBytes s) = .ok (i, rest)) : step s = exec i s := by
  rw [step_of_running hr, hd]

theorem step_of_bytesAt {i : Instr} (hr : s.Running) (hb : BytesAt s s.pc.toNat (encode i)) :
    step s = exec i s :=
  step_of_decode hr ((congrArg decode (fetchBytes_of_bytesAt hb)).trans (decode_encode i))

theorem OpcodeAt.unique {op op' : Byte} (h : OpcodeAt s op) (h' : OpcodeAt s op') : op = op' :=
  h.2.symm.trans h'.2

theorem pc_add_opN_le_of_bytesAt {i : Instr} (hb : BytesAt s s.pc.toNat (encode i)) :
    s.pc.toNat + opN i.opcode ≤ 255 := by
  have hl : (encode i).length = 1 + opN i.opcode := (Laws.OpcodeFields.all i).1
  have := hb.1
  omega

theorem step_of_pc_high (hr : s.Running) (hpc : s.pc.toNat > 255) :
    step s = .next (s.latch (.addressOutOfRange s.pc.toNat s.pc)) := by
  obtain ⟨-, h⟩ | ⟨op, hat, -⟩ | ⟨op, hat, -⟩ | ⟨i, -, hb, -⟩ := step_running hr
  · exact h
  · exact absurd hat.1 (by omega)
  · exact absurd hat.1 (by omega)
  · exact absurd (pc_add_opN_le_of_bytesAt hb) (by omega)

theorem step_of_not_functioning {op : Byte} (hr : s.Running) (hat : OpcodeAt s op)
    (hop : op ∉ functioningOpcodes) : step s = .next (s.latch (.unknownOpcode op s.pc)) := by
  obtain ⟨hpc, -⟩ | ⟨op', hat', -, h⟩ | ⟨op', hat', hin, -⟩ | ⟨i, hin, hb, -⟩ := step_running hr
  · exact absurd hat.1 (by omega)
  · rw [hat.unique hat']; exact h
  · exact absurd (hat.unique hat' ▸ hin) hop
  · exact absurd (hat.unique (opcodeAt_of_bytesAt hb) ▸ hin) hop

/-- A functioning opcode raises on its operands' addresses or is the opcode of the instruction run. -/
theorem step_of_functioning {op : Byte} (hr : s.Running) (hat : OpcodeAt s op)
    (hop : op ∈ functioningOpcodes) :
    (s.pc.toNat + opN op > 255 ∧ step s = .next (s.latch (.addressOutOfRange 256 s.pc))) ∨
      ∃ i, i.opcode = op ∧ s.pc.toNat + opN op ≤ 255 ∧ step s = exec i s := by
  obtain ⟨hpc, -⟩ | ⟨op', hat', hnot, -⟩ | ⟨op', hat', -, hhi, h⟩ | ⟨i, -, hb, h⟩ := step_running hr
  · exact absurd hat.1 (by omega)
  · exact absurd (hat.unique hat' ▸ hop) hnot
  · obtain rfl := hat.unique hat'
    exact .inl ⟨hhi, h⟩
  · obtain rfl := hat.unique (opcodeAt_of_bytesAt hb)
    exact .inr ⟨i, rfl, pc_add_opN_le_of_bytesAt hb, h⟩

theorem exists_step_of_running (hr : s.Running) : ∃ t, step s = .next t := by
  obtain ⟨-, h⟩ | ⟨op, -, -, h⟩ | ⟨op, -, -, -, h⟩ | ⟨i, -, -, h⟩ := step_running hr
  · exact ⟨_, h⟩
  · exact ⟨_, h⟩
  · exact ⟨_, h⟩
  · obtain ⟨t, ht, -⟩ := exec_effect s i
    exact ⟨t, h.trans ht⟩

theorem step_of_not_running (h : ¬ s.Running) : ∃ f, step s = .fault f := by
  cases hs : s.status with
  | running => exact absurd ((State.status_running s).1 hs) h
  | halted => exact ⟨.coreHalted, by simp only [step, hs]⟩
  | faulted c => exact ⟨.coreFaulted c, by simp only [step, hs]⟩

/-- Of the instructions only INT and IRET latch UnknownOpcode, and their opcodes are not functioning (R81). -/
theorem Effect.fault_ne_unknownOpcode {i : Instr} {t : State} (he : Effect s i t) (hr : s.Running)
    (hin : i.opcode ∈ functioningOpcodes) (byte : Byte) (addr : PcWord) :
    t.fault ≠ some (.unknownOpcode byte addr) := by
  cases he with
  | badRegister | divideByZero | callTooHigh => simp
  | reserved hi => obtain ⟨a, rfl⟩ | rfl := hi <;> simp [Instr.opcode, encode, functioningOpcodes] at hin
  | _ => simp [hr.2, State.storeTop]

/-! ## The register operands (R96) -/

theorem withReg_of_find {a v : Byte} (h : [a].find? (fun b => decide (b.toNat > 7)) = some v)
    (s : State) (k : RegIdx → Result) :
    withReg a s k = .next (s.latch (.invalidRegister v s.pc)) := by
  have hv := List.find?_some h
  obtain rfl := List.mem_singleton.1 (List.mem_of_find?_eq_some h)
  exact withReg_invalid (by simpa using hv) s k

theorem withRegs_of_find {a b v : Byte} (h : [a, b].find? (fun b => decide (b.toNat > 7)) = some v)
    (s : State) (k : RegIdx → RegIdx → Result) :
    withRegs a b s k = .next (s.latch (.invalidRegister v s.pc)) := by
  obtain ⟨r, rfl, -⟩ | ⟨ha, hk⟩ := withReg_cases a s fun ra => withReg b s (k ra)
  · have hr : ¬ (regByte r).toNat > 7 := by rw [regByte_toNat]; omega
    rw [List.find?_cons_of_neg (by simpa using hr)] at h
    rw [withRegs, withReg_regByte]
    exact withReg_of_find h s _
  · rw [List.find?_cons_of_pos (by simpa using ha)] at h
    rw [← Option.some.inj h]
    exact hk

/-- The first register operand that names no register is the one reported. -/
theorem exec_of_find {i : Instr} {v : Byte} (s : State)
    (h : i.regOperands.find? (fun b => decide (b.toNat > 7)) = some v) :
    exec i s = .next (s.latch (.invalidRegister v s.pc)) := by
  cases i with
  | nop | hlt | ret | iret | int a => cases h
  | push a | pop a | prn a | pra a | call a => exact withReg_of_find h s _
  | jmp a | jeq a | jne a | jgt a | jlt a | jle a | jge a => exact withReg_of_find h s _
  | inc a | dec a | not a | ldi a imm => exact withReg_of_find h s _
  | ld a b | st a b | add a b | sub a b | mul a b | div a b | mod a b | cmp a b =>
    exact withRegs_of_find h s _
  | and a b | or a b | xor a b | shl a b | shr a b => exact withRegs_of_find h s _

theorem validReg_eq_false {v : Byte} : validReg v = false ↔ v.toNat > 7 := by
  simp only [validReg, decide_eq_false_iff_not]
  omega

theorem wf_eq_false_iff_find (i : Instr) :
    i.wf = false ↔ ∃ v, i.regOperands.find? (fun b => decide (b.toNat > 7)) = some v := by
  rw [← Option.isSome_iff_exists, List.find?_isSome, Instr.wf, List.all_eq_false]
  simp [validReg_eq_false]

end Sys2Proof.Machine
end

section
namespace Sys2Proof.Machine

/-- Settles O28: it is the step's own last line (R90). -/
theorem stepRunsDecodedInstruction : Obligations.StepRunsDecodedInstruction :=
  fun _ _ _ hr hd => step_of_decode hr hd

/-- Settles O29: the bytes fetched are the encoding, and decoding it gives the instruction (R90, R94). -/
theorem stepRunsEncodedBytesAtPc : Obligations.StepRunsEncodedBytesAtPc :=
  fun _ _ hr hb => step_of_bytesAt hr hb

/-- Settles O30: the step's checks by the opcode byte, and no instruction but INT and IRET latches
UnknownOpcode. -/
theorem unknownOpcodeDependsOnByteAlone : Obligations.UnknownOpcodeDependsOnByteAlone := by
  refine fun s op hr hat => ⟨step_of_not_functioning hr hat, fun hop => ?_⟩
  obtain ⟨-, h⟩ | ⟨i, rfl, -, h⟩ := step_of_functioning hr hat hop
  · exact ⟨_, h, by simp⟩
  · obtain ⟨t, ht, he⟩ := exec_effect s i
    exact ⟨t, h.trans ht, he.fault_ne_unknownOpcode hr hop⟩

/-- Settles O31: the two range checks of the fetch (R91, R94). -/
theorem fetchOutOfRangeRaises : Obligations.FetchOutOfRangeRaises := by
  refine ⟨fun s hr hpc => step_of_pc_high hr hpc, fun s op hr hat hop hhi => ?_⟩
  obtain ⟨-, h⟩ | ⟨i, -, hle, -⟩ := step_of_functioning hr hat hop
  · exact h
  · omega

/-- Settles O32: the check stands before every handler that has a register operand (R96). -/
theorem invalidOperandRaises : Obligations.InvalidOperandRaises :=
  fun i s => ⟨fun _ h => exec_of_find s h, wf_eq_false_iff_find i⟩

/-- Settles O33: no branch of a running core's step is refused, and a stopped core's step is a fault
(R101). -/
theorem exactlyRunningCoresStep : Obligations.ExactlyRunningCoresStep :=
  fun _ => ⟨exists_step_of_running, fun h => ⟨step_of_not_running h, run_of_not_running h⟩⟩

/-- Settles O22: both raise in their handlers, and their bytes are none of the functioning opcodes
(R150, R151). -/
theorem intIretRaiseUnknownOpcode : Obligations.IntIretRaiseUnknownOpcode := by
  refine ⟨fun _ _ => rfl, fun _ => rfl, fun op s hop hr hat => ?_⟩
  refine step_of_not_functioning hr hat ?_
  obtain rfl | rfl := hop <;> decide

end Sys2Proof.Machine
end

section
/-! SUPPORT. What each effect of an instruction (`Effect`) does to one part of the state: the flags, the halt
flag, the latch, memory, the console log, the program counter, the registers. -/

namespace Sys2Proof.Machine

open Sys2Proof.Claims

variable {s t : State} {i : Instr}

theorem Effect.fault_eq_or_latch (he : Effect s i t) : t.fault = s.fault ∨ ∃ c, t = s.latch c := by
  cases he with
  | badRegister | divideByZero | callTooHigh | reserved => exact .inr ⟨_, rfl⟩
  | _ => exact .inl rfl

theorem Effect.fl_eq_or_compares (he : Effect s i t) :
    t.fl = s.fl ∨ ∃ a b : RegIdx, i = .cmp (regByte a) (regByte b) ∧
      t.fl = compareFl (s.reg a) (s.reg b) := by
  cases he with
  | compares a b => exact .inr ⟨a, b, rfl, rfl⟩
  | _ => exact .inl rfl

theorem Effect.halt_eq_or_halts (he : Effect s i t) :
    t.halt = s.halt ∨ i = .hlt ∧ t = s.setHalt.advance 1 := by
  cases he with
  | halts => exact .inr ⟨rfl, rfl⟩
  | _ => exact .inl rfl

/-- An effect leaves memory as it is or is one store, to the cell ST's first register names or to the one below
the stack pointer (R51). -/
theorem Effect.mem_eq_or_stores (he : Effect s i t) :
    t.mem = s.mem ∨ ∃ c v, t.mem = (s.store c v).mem ∧
      ((∃ a b, i = .st (regByte a) (regByte b) ∧ c = s.reg a) ∨
        ∃ a, (i = .push (regByte a) ∨ i = .call (regByte a)) ∧ c = s.spDec.sp) := by
  cases he with
  | stores a b => exact .inr ⟨_, _, rfl, .inl ⟨a, b, rfl, rfl⟩⟩
  | pushes a => exact .inr ⟨_, _, rfl, .inr ⟨a, .inl rfl, rfl⟩⟩
  | calls a => exact .inr ⟨_, _, rfl, .inr ⟨a, .inr rfl, rfl⟩⟩
  | _ => exact .inl rfl

theorem Effect.out_eq_or_prints (he : Effect s i t) :
    t.out = s.out ∨ ∃ k a, t.out = s.out ++ [⟨k, s.reg a⟩] ∧
      ((k = .prn ∧ i = .prn (regByte a)) ∨ (k = .pra ∧ i = .pra (regByte a))) := by
  cases he with
  | prints hi => exact .inr ⟨_, _, rfl, hi⟩
  | _ => exact .inl rfl

/-- An effect latches a condition, advances `pc` by the instruction's length, or, when the sets-PC bit is set,
gives `pc` the value of a byte (R74, R98). -/
theorem Effect.latches_or_pc (he : Effect s i t) :
    (∃ c, t = s.latch c) ∨ t.pc = s.pc + BitVec.ofNat 9 i.length ∨
      (opP i.opcode = true ∧ ∃ v, t.pc = zext9 v) := by
  cases he with
  | badRegister | divideByZero | callTooHigh | reserved => exact .inl ⟨_, rfl⟩
  | jumps hP a => exact .inr (.inr ⟨hP, _, rfl⟩)
  | calls | returns => exact .inr (.inr ⟨by simp [Instr.opcode, encode, opP], _, rfl⟩)
  | prints hi =>
    have hl : i.length = 2 := by obtain ⟨-, rfl⟩ | ⟨-, rfl⟩ := hi <;> rfl
    exact .inr (.inl (hl ▸ State.advance_pc_add ..))
  | fallsThrough hP hl => exact .inr (.inl (hl ▸ State.advance_pc_add ..))
  | _ => exact .inr (.inl (State.advance_pc_add ..))

theorem writtenRegs_of_setsFirstReg (hw : setsFirstReg i = true) :
    writtenRegs i = i.regOperands.head?.toList := by
  cases i with
  | add | sub | mul | div | mod | and | or | xor | shl | shr => rfl
  | inc | dec | not | ldi | ld => rfl
  | _ => cases hw

theorem ne_of_regByte_not_mem {r q : RegIdx} {bs : List Byte} (hr : regByte r ∉ bs)
    (hq : regByte q ∈ bs) : r ≠ q :=
  fun e => hr (e ▸ hq)

/-- An effect leaves the registers that the instruction's row of R23 does not list. -/
theorem Effect.reg_eq (he : Effect s i t) {r : RegIdx} (hr : regByte r ∉ writtenRegs i) :
    t.reg r = s.reg r := by
  cases he with
  | @writesReg _ ops hi q hq v _ hw =>
    have hmem : regByte q ∈ writtenRegs i := by simp [writtenRegs_of_setsFirstReg hw, hi, hq]
    exact s.reg_setReg_other v (ne_of_regByte_not_mem hr hmem)
  | pushes | calls =>
    have hne : r ≠ Config.spIndex := ne_of_regByte_not_mem hr (List.mem_singleton_self _)
    exact s.reg_spDec_other hne
  | returns =>
    have hne : r ≠ Config.spIndex := ne_of_regByte_not_mem hr (List.mem_singleton_self _)
    exact (State.reg_spInc ..).trans (if_neg hne)
  | pops a =>
    have hne : r ≠ Config.spIndex := ne_of_regByte_not_mem hr (.tail _ (List.mem_singleton_self _))
    have hna : r ≠ a := ne_of_regByte_not_mem hr List.mem_cons_self
    exact (State.reg_spInc ..).trans ((if_neg hne).trans (s.reg_setReg_other _ hna))
  | _ => rfl

end Sys2Proof.Machine
end

section
namespace Sys2Proof.Machine

/-- Settles O34: the checks before the handler only latch, and an effect that does not only latch keeps the
running core's empty latch (R100, R187). -/
theorem raisingStepChangesOnlyLatch : Obligations.RaisingStepChangesOnlyLatch := by
  intro s t h hf
  obtain ⟨⟨-, hnone⟩, ⟨-, rfl⟩ | ⟨op, -, -, rfl⟩ | ⟨op, -, -, -, rfl⟩ | ⟨i, -, -, hx⟩⟩ := step_cases h
  · exact ⟨_, rfl⟩
  · exact ⟨_, rfl⟩
  · exact ⟨_, rfl⟩
  · obtain hsame | hraised := (effect_of_exec hx).fault_eq_or_latch
    · exact absurd (hsame.trans hnone) hf
    · exact hraised

/-- Settles O35: the effects on the registers, against the table of R23. -/
theorem onlyListedRegistersChange : Obligations.OnlyListedRegistersChange :=
  fun _ _ _ _ h hne => by_contra fun hr => hne ((effect_of_exec h).reg_eq hr)

/-- Settles O36: the effects on the flags register (R29). -/
theorem onlyCmpChangesFlags : Obligations.OnlyCmpChangesFlags := by
  intro i s t h hne
  obtain hsame | ⟨a, b, hi, -⟩ := (effect_of_exec h).fl_eq_or_compares
  · exact absurd hsame hne
  · exact ⟨_, _, hi⟩

/-- Settles O37: the effects on the halt flag (R30). -/
theorem onlyHltChangesHalt : Obligations.OnlyHltChangesHalt := by
  intro i s t h hne
  obtain hsame | ⟨hi, rfl⟩ := (effect_of_exec h).halt_eq_or_halts
  · exact absurd hsame hne
  · exact ⟨hi, rfl⟩

/-- Settles O38: the effects on memory are single stores (R51), and a store changes its own cell only (R53). -/
theorem onlyStorePushCallChangeMemory : Obligations.OnlyStorePushCallChangeMemory := by
  intro i s t c h hne
  obtain hsame | ⟨d, v, hm, hd⟩ := (effect_of_exec h).mem_eq_or_stores
  · exact absurd (congrArg (Memory.read · c.toNat) hsame) hne
  · have hcd : c = d := by
      by_contra hcd
      refine hne ((congrArg (Memory.read · c.toNat) hm).trans ?_)
      exact (State.load_store s d c v).trans (if_neg hcd)
    exact hcd ▸ hd

/-- Settles O39: the effects on the console log (R34). -/
theorem onlyPrintExtendsLog : Obligations.OnlyPrintExtendsLog := by
  intro i s t h hne
  obtain hsame | ⟨k, a, ho, ⟨rfl, hi⟩ | ⟨rfl, hi⟩⟩ := (effect_of_exec h).out_eq_or_prints
  · exact absurd hsame hne
  · exact ⟨a, .inl ⟨hi, ho⟩⟩
  · exact ⟨a, .inr ⟨hi, ho⟩⟩

/-- Settles O40: the effects on `pc`, with the length of R72. -/
theorem defaultAdvanceIsLength : Obligations.DefaultAdvanceIsLength := by
  intro i s t hP h
  obtain hraised | hadv | ⟨hset, -⟩ := (effect_of_exec h).latches_or_pc
  · exact .inl hraised
  · have hl : i.length = 1 + opN i.opcode := (Laws.OpcodeFields.all i).1
    exact .inr (hl ▸ hadv)
  · exact absurd (hP.symm.trans hset) (by decide)

end Sys2Proof.Machine
end

section
/-! SUPPORT. The invariant of the core (`CoreInv`): it holds of a core on which only memory has been written
since reset, and each part of it is kept by the effect of the instruction that stands at `pc`. -/

namespace Sys2Proof.Machine

variable {s t : State} {i : Instr}

theorem latchExplained_of_fault_none (h : s.fault = none) : LatchExplained s := by
  rw [LatchExplained, h]
  trivial

/-! ## Before the first step -/

/-- The host's writes before the first step change memory only (R204), and of memory the invariant then asks
the canonical form alone. -/
theorem coreInv_of_reset_but_mem {m : Memory} (hm : Memory.wf m = true) :
    CoreInv { State.reset with mem := m } where
  mem_wf := hm
  pc_le := Nat.zero_le _
  fl_legal := .inl rfl
  one_stop _ := rfl
  halt_at_hlt h := nomatch h
  latch := trivial

theorem State.storeBytes_eq_with_mem (s : State) (addr : Nat) (vs : List Byte) :
    s.storeBytes addr vs = { s with mem := (s.storeBytes addr vs).mem } := by
  fun_induction State.storeBytes s addr vs with
  | case1 => rfl
  | case2 s addr v vs _ ih => rw [ih, State.store]
  | case3 => rfl

theorem coreInv_loadImage (image : List Byte) : CoreInv (loadImage image State.reset) := by
  rw [loadImage, State.storeBytes_eq_with_mem]
  exact coreInv_of_reset_but_mem (State.storeBytes_wf image State.reset_mem_wf 0)

/-! ## The bytes of the instruction at `pc` -/

/-- A register-index operand is one of the bytes after the opcode (R70, R76). -/
theorem mem_tail_encode_of_mem_regOperands {v : Byte} (hv : v ∈ i.regOperands) :
    v ∈ (encode i).tail := by
  cases i with
  | nop | hlt | ret | iret | int => cases hv
  | ldi a imm => exact List.mem_append_left [imm] hv
  | _ => exact hv

theorem length_le_three (i : Instr) : (encode i).length ≤ 3 := by
  cases i <;> simp [encode]

theorem read_of_mem_tail_encode {v : Byte} (hb : BytesAt s s.pc.toNat (encode i))
    (hv : v ∈ (encode i).tail) :
    Memory.read s.mem (s.pc.toNat + 1) = v ∨ Memory.read s.mem (s.pc.toNat + 2) = v := by
  obtain ⟨k, hk, rfl⟩ := List.getElem_of_mem hv
  have hread := hb.2 (k + 1) (by simpa [Nat.lt_sub_iff_add_lt] using hk)
  rw [List.getElem_tail, ← hread]
  have hlen := length_le_three i
  rw [List.length_tail] at hk
  obtain rfl | rfl : k = 0 ∨ k = 1 := by omega
  · exact .inl rfl
  · exact .inr rfl

/-! ## One step -/

theorem CoreInv.latch_of_running (h : CoreInv s) (hr : s.Running) {c : Condition}
    (hc : LatchExplained (s.latch c)) : CoreInv (s.latch c) where
  mem_wf := h.mem_wf
  pc_le := h.pc_le
  fl_legal := h.fl_legal
  one_stop hh := absurd (hr.1.symm.trans hh) (by decide)
  halt_at_hlt hh := absurd (hr.1.symm.trans hh) (by decide)
  latch := hc

/-- The conditions an instruction latches are true of its own bytes and registers (R180). -/
theorem Effect.latchExplained (he : Effect s i t) (hr : s.Running)
    (hin : i.opcode ∈ functioningOpcodes) (hb : BytesAt s s.pc.toNat (encode i)) :
    LatchExplained t := by
  have hat : OpcodeAt s i.opcode := opcodeAt_of_bytesAt hb
  cases he with
  | badRegister hv hn =>
    exact ⟨rfl, hn, read_of_mem_tail_encode hb (mem_tail_encode_of_mem_regOperands hv)⟩
  | @divideByZero _ a b hi h0 =>
    have hop : i.opcode = 0xA3 ∨ i.opcode = 0xA4 := hi.imp (congrArg Instr.opcode) (congrArg Instr.opcode)
    have hdiv : Memory.read s.mem (s.pc.toNat + 2) = regByte b := by
      obtain rfl | rfl := hi <;> exact hb.2 2 (Nat.lt_succ_self 2)
    exact ⟨rfl, i.opcode, hop, hat, b, hdiv, h0⟩
  | callTooHigh hhi =>
    have hle : s.pc.toNat + 2 ≤ 256 := hb.1
    exact ⟨by omega, rfl, .inr ⟨_, hat, hin, .inr ⟨rfl, show s.pc.toNat = 254 by omega⟩⟩⟩
  | reserved hi =>
    obtain ⟨a, rfl⟩ | rfl := hi <;> simp [Instr.opcode, encode, functioningOpcodes] at hin
  | _ => exact latchExplained_of_fault_none hr.2

theorem Effect.mem_wf (he : Effect s i t) (h : Memory.wf s.mem = true) : Memory.wf t.mem = true := by
  obtain hsame | ⟨c, v, hm, -⟩ := he.mem_eq_or_stores
  · rw [hsame]; exact h
  · rw [hm]; exact State.store_wf h c v

/-- The instruction lies in memory, so its end is at most 256, and a jump's target is a byte (R25, R98). -/
theorem Effect.pc_le (he : Effect s i t) (hb : BytesAt s s.pc.toNat (encode i)) :
    t.pc.toNat ≤ 256 := by
  have hlen : s.pc.toNat + i.length ≤ 256 := hb.1
  obtain ⟨c, rfl⟩ | hadv | ⟨-, v, hv⟩ := he.latches_or_pc
  · exact Nat.le_of_add_right_le hlen
  · rw [hadv, ← State.advance_pc_add, State.advance_pc_toNat s (by omega)]
    exact hlen
  · rw [hv, zext9_toNat]
    exact v.isLt.le

theorem Effect.fl_legal (he : Effect s i t) (h : s.fl = 0 ∨ s.fl = 1 ∨ s.fl = 2 ∨ s.fl = 4) :
    t.fl = 0 ∨ t.fl = 1 ∨ t.fl = 2 ∨ t.fl = 4 := by
  obtain hsame | ⟨a, b, -, hfl⟩ := he.fl_eq_or_compares
  · rwa [hsame]
  · rw [hfl]
    obtain ⟨-, hc⟩ | ⟨-, hc⟩ | ⟨-, hc⟩ := compareFl_cases (s.reg a) (s.reg b) <;> simp [hc]

/-- The effect of a running core's instruction leaves it halted only when it is HLT's (R30, R166). -/
theorem Effect.of_halt (he : Effect s i t) (hr : s.Running) (hh : t.halt = true) :
    i = .hlt ∧ t = s.setHalt.advance 1 := by
  obtain hsame | hhlt := he.halt_eq_or_halts
  · exact absurd (hr.1.symm.trans (hsame.symm.trans hh)) (by decide)
  · exact hhlt

theorem Effect.coreInv (he : Effect s i t) (h : CoreInv s) (hr : s.Running)
    (hin : i.opcode ∈ functioningOpcodes) (hb : BytesAt s s.pc.toNat (encode i)) : CoreInv t where
  mem_wf := he.mem_wf h.mem_wf
  pc_le := he.pc_le hb
  fl_legal := he.fl_legal h.fl_legal
  one_stop hh := by
    obtain ⟨-, rfl⟩ := he.of_halt hr hh
    exact hr.2
  halt_at_hlt hh := by
    obtain ⟨rfl, rfl⟩ := he.of_halt hr hh
    have hat : OpcodeAt s 0x01 := opcodeAt_of_bytesAt hb
    have hpc : s.pc.toNat + 1 < 512 := Nat.lt_of_le_of_lt (Nat.succ_le_succ hat.1) (by decide)
    exact ⟨s.pc.toNat, State.advance_pc_toNat s.setHalt hpc, hat.2⟩
  latch := he.latchExplained hr hin hb

theorem CoreInv.step (h : CoreInv s) (hs : Machine.step s = .next t) : CoreInv t := by
  obtain ⟨hr, ⟨hpc, rfl⟩ | ⟨op, hat, hnot, rfl⟩ | ⟨op, hat, hin, hhi, rfl⟩ | ⟨i, hin, hb, hx⟩⟩ :=
    step_cases hs
  · have h256 : s.pc.toNat = 256 := by have := h.pc_le; omega
    exact h.latch_of_running hr ⟨h256, rfl, .inl h256⟩
  · exact h.latch_of_running hr ⟨rfl, hat, hnot⟩
  · exact h.latch_of_running hr ⟨rfl, rfl, .inr ⟨op, hat, hin, .inl hhi⟩⟩
  · exact (effect_of_exec hx).coreInv h hr hin hb

end Sys2Proof.Machine
end

section
namespace Sys2Proof.Machine

/-- Settles O47: a raise before the handler is explained by the check that raised it, and an instruction's
effect keeps each part of the invariant. -/
theorem everyStepKeepsTheInvariant : Obligations.EveryStepKeepsTheInvariant :=
  fun _ _ h hs => h.step hs

/-- Settles O48: loading writes memory only, and keeps it in canonical form. -/
theorem invariantHoldsAfterResetAndLoad : Obligations.InvariantHoldsAfterResetAndLoad :=
  ⟨coreInv_loadImage [], coreInv_loadImage⟩

end Sys2Proof.Machine
end

section
/-! SUPPORT. The run loop (70_reset_and_hazards.md R205): a budget spent in two parts, the step it ends with,
and the invariant along it. -/

namespace Sys2Proof.Machine

variable {s t : State}

theorem run_succ_of_step (h : step s = .next t) (n : Nat) : run (n + 1) s = run n t := by
  rw [run, h]

theorem run_add (m n : Nat) (s : State) : run (m + n) s = run n (run m s) := by
  induction m generalizing s with
  | zero => rw [Nat.zero_add, run]
  | succ m ih =>
    by_cases hr : s.Running
    · obtain ⟨t, ht⟩ := exists_step_of_running hr
      rw [Nat.succ_add, run_succ_of_step ht, run_succ_of_step ht, ih]
    · rw [run_of_not_running hr, run_of_not_running hr, run_of_not_running hr]

/-- The step a budget ends with. -/
theorem run_succ_eq_of_step {n : Nat} (h : step (run n s) = .next t) : run (n + 1) s = t := by
  rw [run_add, run_succ_of_step h, run]

/-- What holds of a state and is kept by every step holds at every budget. -/
theorem run_induction {P : State → Prop} (hstep : ∀ s t, P s → step s = .next t → P t) (n : Nat)
    (hs : P s) : P (run n s) := by
  induction n with
  | zero => exact hs
  | succ n ih =>
    by_cases hr : (run n s).Running
    · obtain ⟨t, ht⟩ := exists_step_of_running hr
      rw [run_succ_eq_of_step ht]
      exact hstep _ _ ih ht
    · rwa [run_add, run_of_not_running hr]

theorem CoreInv.run (h : CoreInv s) (n : Nat) : CoreInv (Machine.run n s) :=
  run_induction (fun _ _ => CoreInv.step) n h

/-- A core with the invariant has not stopped, or has stopped in one of two ways (R39, R208). -/
theorem CoreInv.running_or_ended (h : CoreInv s) : s.Running ∨ s.EndedWell ∨ s.EndedBadly := by
  cases hf : s.fault with
  | none =>
    cases hh : s.halt with
    | false => exact .inl ⟨hh, hf⟩
    | true => exact .inr (.inl ⟨hh, hf⟩)
  | some c =>
    have hhalt : s.halt = false := by
      by_contra hne
      have hnone := h.one_stop (Bool.eq_true_of_not_eq_false hne)
      exact absurd (hf.symm.trans hnone) (by simp)
    exact .inr (.inr ⟨hhalt, by simp [hf]⟩)

end Sys2Proof.Machine
end

section
namespace Sys2Proof.Machine

/-- Settles O49: the invariant holds at every budget, and says of each end what is asked of it. -/
theorem runEndsWellOrBadly : Obligations.RunEndsWellOrBadly := by
  intro s n h _
  have hn : CoreInv (run n s) := h.run n
  obtain hr | hw | hb := hn.running_or_ended
  · exact .inl hr
  · exact .inr (.inl ⟨hw, hn.halt_at_hlt hw.1⟩)
  · exact .inr (.inr ⟨hb, hn.latch⟩)

/-- Settles O50: the first part by induction on its budget, the second because a stopped core's run goes
nowhere (R101). -/
theorem runComposesAndSettles : Obligations.RunComposesAndSettles := by
  refine fun s m n => ⟨run_add m n s, fun hstop => ?_⟩
  rw [run_add, run_of_not_running hstop]

end Sys2Proof.Machine
end

section
/-! SUPPORT. The console log is never read (10_state.md R34): an instruction, a step and a run from a state
with another log do the same and append the same records. -/

namespace Sys2Proof.Machine

/-- `s` with the console log `o` in place of its own. -/
def State.withOut (s : State) (o : List OutRecord) : State := { s with out := o }

/-- `r`, an answer from `s`, and `r'`, one from `s` with the log `o`, are the same next state but for the log,
and both logs are extended by the same records. -/
def SameRecords (s : State) (o : List OutRecord) (r r' : Result) : Prop :=
  ∃ t new, r = .next t ∧ t.out = s.out ++ new ∧ r' = .next (t.withOut (o ++ new))

variable {s : State} {o : List OutRecord}

theorem sameRecords_of_out_eq {t : State} (h : t.out = s.out) :
    SameRecords s o (.next t) (.next (t.withOut o)) :=
  ⟨t, [], rfl, by rw [h, List.append_nil], by rw [List.append_nil]⟩

theorem sameRecords_withReg {k k' : RegIdx → Result} (a : Byte)
    (h : ∀ r, SameRecords s o (k r) (k' r)) :
    SameRecords s o (withReg a s k) (withReg a (s.withOut o) k') := by
  obtain ⟨r, rfl, -⟩ | ⟨ha, -⟩ := withReg_cases a s k
  · rw [withReg_regByte, withReg_regByte]
    exact h r
  · rw [withReg_invalid ha, withReg_invalid ha]
    exact sameRecords_of_out_eq rfl

theorem sameRecords_withRegs {k k' : RegIdx → RegIdx → Result} (a b : Byte)
    (h : ∀ r q, SameRecords s o (k r q) (k' r q)) :
    SameRecords s o (withRegs a b s k) (withRegs a b (s.withOut o) k') :=
  sameRecords_withReg a fun r => sameRecords_withReg b (h r)

theorem sameRecords_ite {c : Prop} [Decidable c] {r₁ r₂ r₁' r₂' : Result}
    (h₁ : SameRecords s o r₁ r₁') (h₂ : SameRecords s o r₂ r₂') :
    SameRecords s o (if c then r₁ else r₂) (if c then r₁' else r₂') := by
  by_cases hc : c
  · rwa [if_pos hc, if_pos hc]
  · rwa [if_neg hc, if_neg hc]

theorem sameRecords_jumpIf (c : Bool) (a : Byte) :
    SameRecords s o (jumpIf c a s) (jumpIf c a (s.withOut o)) := by
  refine sameRecords_withReg a fun r => ?_
  cases c with
  | true => exact sameRecords_of_out_eq rfl
  | false => exact sameRecords_of_out_eq rfl

theorem sameRecords_exec (i : Instr) : SameRecords s o (exec i s) (exec i (s.withOut o)) := by
  cases i with
  | nop | hlt | ret | iret | int => exact sameRecords_of_out_eq rfl
  | push a | pop a => exact sameRecords_withReg a fun _ => sameRecords_of_out_eq rfl
  | prn a | pra a => exact sameRecords_withReg a fun _ => ⟨_, _, rfl, rfl, rfl⟩
  | call a =>
    exact sameRecords_withReg a fun _ =>
      sameRecords_ite (sameRecords_of_out_eq rfl) (sameRecords_of_out_eq rfl)
  | jmp a | jeq a | jne a | jgt a | jlt a | jle a | jge a => exact sameRecords_jumpIf _ a
  | inc a | dec a | not a | ldi a => exact sameRecords_withReg a fun _ => sameRecords_of_out_eq rfl
  | div a b | mod a b =>
    exact sameRecords_withRegs a b fun _ _ =>
      sameRecords_ite (sameRecords_of_out_eq rfl) (sameRecords_of_out_eq rfl)
  | ld a b | st a b | add a b | sub a b | mul a b | cmp a b | and a b | or a b | xor a b | shl a b
  | shr a b => exact sameRecords_withRegs a b fun _ _ => sameRecords_of_out_eq rfl

theorem sameRecords_step (hr : s.Running) : SameRecords s o (step s) (step (s.withOut o)) := by
  have hr' : (s.withOut o).Running := hr
  have hfetch : fetchBytes (s.withOut o) = fetchBytes s := rfl
  rw [step_of_running hr, step_of_running hr', hfetch]
  cases decode (fetchBytes s) with
  | ok p => exact sameRecords_exec p.1
  | error e => cases e <;> exact sameRecords_of_out_eq rfl

/-! ## In the statements' terms -/

theorem SameButOut.eq_withOut {s s' : State} (h : SameButOut s s') : s' = s.withOut s'.out := by
  obtain ⟨regs, pc, fl, halt, fault, mem⟩ := h
  rw [State.withOut, ← regs, ← pc, ← fl, ← halt, ← fault, ← mem]

theorem SameButOut.running {s s' : State} (h : SameButOut s s') (hr : s.Running) : s'.Running := by
  rw [h.eq_withOut]
  exact hr

theorem SameButOut.symm {s s' : State} (h : SameButOut s s') : SameButOut s' s := by
  rw [h.eq_withOut]
  exact ⟨rfl, rfl, rfl, rfl, rfl, rfl⟩

theorem SameButOut.step {s s' t : State} (h : SameButOut s s') (hs : Machine.step s = .next t) :
    ∃ t' new, Machine.step s' = .next t' ∧ SameButOut t t' ∧
      t.out = s.out ++ new ∧ t'.out = s'.out ++ new := by
  obtain ⟨u, new, hu, hout, hu'⟩ := sameRecords_step (o := s'.out) (running_of_step hs)
  rw [← h.eq_withOut] at hu'
  obtain rfl : t = u := by injection hs.symm.trans hu
  exact ⟨_, new, hu', ⟨rfl, rfl, rfl, rfl, rfl, rfl⟩, hout, rfl⟩

theorem SameButOut.run {s s' : State} (h : SameButOut s s') (n : Nat) :
    SameButOut (Machine.run n s) (Machine.run n s') := by
  induction n generalizing s s' with
  | zero => exact h
  | succ n ih =>
    by_cases hr : s.Running
    · obtain ⟨t, ht⟩ := exists_step_of_running hr
      obtain ⟨t', -, ht', hsame, -⟩ := h.step ht
      rw [run_succ_of_step ht, run_succ_of_step ht']
      exact ih hsame
    · rwa [run_of_not_running hr, run_of_not_running (mt h.symm.running hr)]

end Sys2Proof.Machine
end

section
/-! SUPPORT. A running core with the invariant has, the log apart, one of finitely many states
(70_reset_and_hazards.md R214): they are told apart by the registers, `pc`, the flags and the 256 bytes. -/

namespace Sys2Proof.Machine

theorem finite_bitVec (w : Nat) : Finite (BitVec w) :=
  Finite.of_injective BitVec.toFin fun _ _ h => BitVec.eq_of_toFin_eq h

/-- What tells two running cores apart, their logs aside. -/
def State.fingerprint (s : State) : (RegIdx → Byte) × PcWord × Byte × (Byte → Byte) :=
  (s.reg, s.pc, s.fl, s.load)

theorem Memory.eq_of_load_eq {s t : State} (hs : Memory.wf s.mem = true) (ht : Memory.wf t.mem = true)
    (h : s.load = t.load) : s.mem = t.mem := by
  refine Memory.wf_ext hs ht fun a ha => ?_
  have hload := congrFun h (BitVec.ofNat 8 a)
  rwa [State.load, State.load, BitVec.toNat_ofNat, Nat.mod_eq_of_lt ha] at hload

/-- Canonical memory is what makes equal bytes equal memories. -/
theorem sameButOut_of_fingerprint {s t : State} (hs : CoreInv s) (ht : CoreInv t) (hrs : s.Running)
    (hrt : t.Running) (h : s.fingerprint = t.fingerprint) : SameButOut s t := by
  simp only [State.fingerprint, Prod.mk.injEq] at h
  obtain ⟨hreg, hpc, hfl, hload⟩ := h
  exact ⟨State.regs_ext fun q => (congrFun hreg q).symm, hpc.symm, hfl.symm,
    hrt.1.trans hrs.1.symm, hrt.2.trans hrs.2.symm, (Memory.eq_of_load_eq hs.mem_wf ht.mem_wf hload).symm⟩

/-- The pigeonhole: infinitely many budgets, finitely many fingerprints. -/
theorem exists_lt_fingerprint_eq (f : Nat → State) :
    ∃ i j, i < j ∧ (f i).fingerprint = (f j).fingerprint := by
  have := finite_bitVec 8
  have := finite_bitVec 9
  obtain ⟨i, j, hne, h⟩ := Finite.exists_ne_map_eq_of_infinite fun n => (f n).fingerprint
  obtain hlt | hgt := lt_or_gt_of_ne hne
  · exact ⟨i, j, hlt, h⟩
  · exact ⟨j, i, hgt, h.symm⟩

end Sys2Proof.Machine
end

section
namespace Sys2Proof.Machine

/-- Settles O42: the answers of a step from two logs, taken instruction by instruction (R34). -/
theorem consoleLogIsNeverRead : Obligations.ConsoleLogIsNeverRead :=
  fun _ _ _ h hs => h.step hs

/-- Settles O51: two budgets leave the same fingerprint, so the same state but for the log, and from two such
states the runs stay alike. -/
theorem endlessRunCycles : Obligations.EndlessRunCycles := by
  intro s h hr
  obtain ⟨i, j, hij, hfp⟩ := exists_lt_fingerprint_eq fun n => run n s
  have hsame : SameButOut (run i s) (run j s) :=
    sameButOut_of_fingerprint (h.run i) (h.run j) (hr i) (hr j) hfp
  refine ⟨i, j, hij, fun k => ?_⟩
  rw [run_add, run_add]
  exact hsame.run k

end Sys2Proof.Machine
end

section
/-! SUPPORT. The loader's stores (70_reset_and_hazards.md R204): an image at consecutive cells, and no cell
outside it changed. -/

namespace Sys2Proof.Machine

theorem toNat_ofNat_of_le {addr : Nat} (h : addr ≤ 255) : (BitVec.ofNat 8 addr).toNat = addr := by
  rw [BitVec.toNat_ofNat]
  exact Nat.mod_eq_of_lt (Nat.lt_succ_of_le h)

theorem read_storeBytes_outside (s : State) {addr a : Nat} {vs : List Byte}
    (ha : a < addr ∨ addr + vs.length ≤ a) :
    Memory.read (s.storeBytes addr vs).mem a = Memory.read s.mem a := by
  fun_induction State.storeBytes s addr vs with
  | case1 => rfl
  | case2 s addr v vs hle ih =>
    rw [List.length_cons] at ha
    rw [ih (by omega), State.store_mem, toNat_ofNat_of_le hle]
    exact Memory.read_write_other s.mem v (by omega)
  | case3 => rfl

theorem bytesAt_storeBytes (s : State) {addr : Nat} {vs : List Byte} (h : addr + vs.length ≤ 256) :
    BytesAt (s.storeBytes addr vs) addr vs := by
  refine ⟨h, ?_⟩
  fun_induction State.storeBytes s addr vs with
  | case1 => exact fun k hk => absurd hk (Nat.not_lt_zero k)
  | case2 s addr v vs hle ih =>
    rw [List.length_cons] at h
    rintro (_ | k) hk
    · have hat : addr < addr + 1 := Nat.lt_succ_self addr
      simp only [Nat.add_zero, List.getElem_cons_zero]
      rw [read_storeBytes_outside _ (.inl hat), State.store_mem, toNat_ofNat_of_le hle,
        Memory.read_write_same]
    · rw [show addr + (k + 1) = addr + 1 + k by omega]
      exact ih (by omega) k (Nat.lt_of_succ_lt_succ hk)
  | case3 s addr v vs hgt => rw [List.length_cons] at h; omega

theorem State.storeBytes_running {s : State} (h : s.Running) (addr : Nat) (vs : List Byte) :
    (s.storeBytes addr vs).Running := by
  rw [State.storeBytes_eq_with_mem]
  exact h

end Sys2Proof.Machine
end

section
namespace Sys2Proof.Machine

/-- Settles O3: the loader's stores from address 0. -/
theorem loadedImageStandsFromZero : Obligations.LoadedImageStandsFromZero := by
  refine fun s image hlen => ⟨?_, fun c hc => ?_, State.storeBytes_eq_with_mem s 0 image⟩
  · exact bytesAt_storeBytes s (by omega)
  · exact read_storeBytes_outside s (.inr (by omega))

end Sys2Proof.Machine
end

section
/-! SUPPORT. The moves of the two agents, each in its window (70_reset_and_hazards.md R206): which are made and
what they make of the session, which are refused, what sequences of them come to, and the invariant. -/

namespace Sys2Proof.Machine

variable {p q : Session}

/-! ## The moves that are made -/

theorem Session.act_load (h : p.window = .beforeRun) (addr v : Byte) :
    p.act (.load addr v) = .ok { p with core := p.core.store addr v } := by
  simp [Session.act, hostLoad, h]

theorem Session.act_run_beforeRun (h : p.window = .beforeRun) :
    p.act .run = .ok { p with started := true } := by
  simp [Session.act, hostRun, h]

theorem Session.act_run_afterStop (h : p.window = .afterStop) : p.act .run = .ok p := by
  simp [Session.act, hostRun, h]

theorem hostRead_afterStop (h : p.window = .afterStop) : hostRead p = .ok p.core := by
  simp [hostRead, h]

theorem Session.act_read_afterStop (h : p.window = .afterStop) : p.act .read = .ok p :=
  congrArg (Except.map fun _ => p) (hostRead_afterStop h)

theorem Session.act_step {t : State} (h : p.window = .duringRun) (hs : step p.core = .next t) :
    p.act .step = .ok { p with core := t } := by
  simp [Session.act, coreStep, h, hs]

/-! ## The moves that are refused -/

theorem Session.act_step_beforeRun (h : p.window = .beforeRun) : p.act .step = .error .beforeRun := by
  simp [Session.act, coreStep, h]

theorem Session.act_read_beforeRun (h : p.window = .beforeRun) : p.act .read = .error .beforeRun := by
  simp [Session.act, hostRead, Except.map, h]

/-- The host has no move during a run but reset. -/
theorem Session.act_duringRun (h : p.window = .duringRun) {m : Move} (hreset : m ≠ .reset)
    (hstep : m ≠ .step) : p.act m = .error .duringRun := by
  cases m with
  | reset => exact absurd rfl hreset
  | step => exact absurd rfl hstep
  | load | run => simp [Session.act, hostLoad, hostRun, h]
  | read => simp [Session.act, hostRead, Except.map, h]

theorem Session.act_step_afterStop (h : p.window = .afterStop) : p.act .step = .error .afterStop := by
  simp [Session.act, coreStep, h]

theorem Session.act_load_afterStop (h : p.window = .afterStop) (addr v : Byte) :
    p.act (.load addr v) = .error .afterStop := by
  simp [Session.act, hostLoad, h]

/-! ## Sequences of moves -/

theorem Session.acts_cons {m : Move} (h : p.act m = .ok q) (ms : List Move) :
    p.acts (m :: ms) = q.acts ms := by
  rw [Session.acts, h]

/-- Stores do not start or stop the core, so each of the loader's moves finds the window of the first. -/
theorem Session.acts_loadMoves (addr : Nat) (vs : List Byte) (h : p.window = .beforeRun) :
    p.acts (loadMoves addr vs) = .ok { p with core := p.core.storeBytes addr vs } := by
  fun_induction loadMoves addr vs generalizing p with
  | case1 => rfl
  | case2 addr v vs hle ih =>
    rw [Session.acts_cons (Session.act_load h _ v), State.storeBytes, if_pos hle]
    exact ih (p := { p with core := p.core.store _ v }) h
  | case3 addr v vs hgt => rw [State.storeBytes, if_neg hgt, Session.acts]

theorem Session.acts_steps (n : Nat) (hst : p.started = true) (h : ∀ k < n, (run k p.core).Running) :
    p.acts (List.replicate n .step) = .ok { p with core := run n p.core } := by
  induction n generalizing p with
  | zero => rfl
  | succ n ih =>
    have hr : p.core.Running := h 0 n.succ_pos
    obtain ⟨t, ht⟩ := exists_step_of_running hr
    have hact := Session.act_step (Session.window_duringRun.2 ⟨hr, hst⟩) ht
    have hrest : ∀ k < n, (run k t).Running := fun k hk =>
      run_succ_of_step ht k ▸ h (k + 1) (Nat.succ_lt_succ hk)
    rw [List.replicate_succ, Session.acts_cons hact, run_succ_of_step ht]
    exact ih (p := { p with core := t }) hst hrest

/-- Once started, a move that is made and is no reset is the core's step or leaves the session as it is. -/
theorem Session.act_of_started {m : Move} (hst : p.started = true) (hm : m ≠ .reset)
    (h : p.act m = .ok q) :
    q = p ∨ m = .step ∧ ∃ t, step p.core = .next t ∧ q = { p with core := t } := by
  have hnot : p.window ≠ .beforeRun := fun hw =>
    absurd (hst.symm.trans (Session.window_beforeRun.1 hw).2) (by decide)
  obtain ⟨rfl, -⟩ | ⟨_, _, -, hw, -⟩ | ⟨-, hw, -⟩ | ⟨-, -, rfl⟩ | ⟨-, -, rfl⟩ | ⟨rfl, -, hstep⟩ :=
    Session.act_ok h
  · exact absurd rfl hm
  · exact absurd hw hnot
  · exact absurd hw hnot
  · exact .inl rfl
  · exact .inl rfl
  · exact .inr ⟨rfl, hstep⟩

theorem Session.acts_of_started (ms : List Move) (hst : p.started = true) (hms : .reset ∉ ms)
    (h : p.acts ms = .ok q) :
    q.started = true ∧ ∃ n, n ≤ ms.count .step ∧ q.core = run n p.core := by
  induction ms generalizing p with
  | nil =>
    obtain rfl := Except.ok.inj h
    exact ⟨hst, 0, Nat.zero_le _, rfl⟩
  | cons m ms ih =>
    have hm : m ≠ .reset := fun e => hms (e ▸ List.mem_cons_self)
    have hrest : .reset ∉ ms := fun hmem => hms (List.mem_cons_of_mem m hmem)
    cases ha : p.act m with
    | error w => rw [Session.acts, ha] at h; cases h
    | ok r =>
      rw [Session.acts_cons ha] at h
      obtain rfl | ⟨rfl, t, ht, rfl⟩ := Session.act_of_started hst hm ha
      · obtain ⟨hq, n, hn, hcore⟩ := ih hst hrest h
        exact ⟨hq, n, hn.trans List.count_le_count_cons, hcore⟩
      · obtain ⟨hq, n, hn, hcore⟩ := ih (p := { p with core := t }) hst hrest h
        refine ⟨hq, n + 1, ?_, hcore.trans (run_succ_of_step ht n).symm⟩
        rw [List.count_cons_self]
        exact Nat.succ_le_succ hn

/-! ## The session's invariant -/

theorem State.storeAll_wf {s : State} (h : Memory.wf s.mem = true) (ws : List (Byte × Byte)) :
    Memory.wf (s.storeAll ws).mem = true := by
  induction ws using List.reverseRecOn with
  | nil => exact h
  | append_singleton ws w ih =>
    rw [State.storeAll_concat]
    exact State.store_wf ih w.1 w.2

theorem coreInv_storeAll (ws : List (Byte × Byte)) : CoreInv (State.reset.storeAll ws) := by
  rw [State.storeAll_eq_with_mem]
  exact coreInv_of_reset_but_mem (State.storeAll_wf State.reset_mem_wf ws)

/-- The core's own invariant is a consequence of where its run began. -/
theorem sessionInv_of_run (ws : List (Byte × Byte)) (n : Nat)
    (hcore : p.core = run n (State.reset.storeAll ws)) (hn : p.started = false → n = 0) : SessionInv p where
  run_of_written_reset := ⟨ws, n, hcore, hn⟩
  core_inv := hcore ▸ (coreInv_storeAll ws).run n

theorem sessionInv_reset : SessionInv Session.reset :=
  sessionInv_of_run [] 0 rfl fun _ => rfl

/-- Before `run` no step has been taken, so a load is one more of the writes before the run. -/
theorem SessionInv.load (h : SessionInv p) (hst : p.started = false) (addr v : Byte) :
    SessionInv { p with core := p.core.store addr v } := by
  obtain ⟨⟨ws, n, hcore, hn⟩, -⟩ := h
  refine sessionInv_of_run (ws ++ [(addr, v)]) 0 ?_ fun _ => rfl
  rw [hn hst] at hcore
  rw [State.storeAll_concat, hcore]
  rfl

theorem SessionInv.start (h : SessionInv p) : SessionInv { p with started := true } := by
  obtain ⟨⟨ws, n, hcore, -⟩, -⟩ := h
  exact sessionInv_of_run ws n hcore (fun hst => nomatch hst)

theorem SessionInv.step (h : SessionInv p) (hst : p.started = true) {t : State}
    (hs : Machine.step p.core = .next t) : SessionInv { p with core := t } := by
  obtain ⟨⟨ws, n, hcore, -⟩, -⟩ := h
  rw [hcore] at hs
  refine sessionInv_of_run ws (n + 1) (run_succ_eq_of_step hs).symm fun hfalse => ?_
  exact absurd (hst.symm.trans hfalse) (by decide)

theorem SessionInv.act (h : SessionInv p) {m : Move} (ha : p.act m = .ok q) : SessionInv q := by
  obtain ⟨-, rfl⟩ | ⟨addr, v, -, hw, rfl⟩ | ⟨-, -, rfl⟩ | ⟨-, -, rfl⟩ | ⟨-, -, rfl⟩ |
    ⟨-, hw, t, hs, rfl⟩ := Session.act_ok ha
  · exact sessionInv_reset
  · exact h.load (Session.window_beforeRun.1 hw).2 addr v
  · exact h.start
  · exact h
  · exact h
  · exact h.step (Session.window_duringRun.1 hw).2 hs

end Sys2Proof.Machine
end

section
namespace Sys2Proof.Machine

/-- Settles O56: a load is one more write before the run, a step one more step of it, and the other moves leave
the core as it is or reset it. -/
theorem everyMoveKeepsTheSessionInvariant : Obligations.EveryMoveKeepsTheSessionInvariant :=
  fun _ _ _ h ha => h.act ha

/-- Settles O57: the run of no steps with no writes before it. -/
theorem sessionInvariantHoldsAtReset : Obligations.SessionInvariantHoldsAtReset :=
  sessionInv_reset

/-- Settles O55: the session's invariant holds at reset and is kept by every move (R211). -/
theorem sessionsAreRunsOfWrittenResets : Obligations.SessionsAreRunsOfWrittenResets := by
  intro ms p h
  obtain ⟨hrun, hinv⟩ := Session.acts_induction (fun _ _ _ h ha => h.act ha) ms sessionInv_reset h
  exact ⟨hrun, hinv⟩

/-- Settles O54: by induction on the moves (R206). -/
theorem onlyStepsBetweenRunAndReset : Obligations.OnlyStepsBetweenRunAndReset :=
  fun ms _ _ hst hms h => Session.acts_of_started ms hst hms h

/-- Settles O53: the loader's moves, then `run`, then the steps (R203). -/
theorem bootSequenceRunsTheImage : Obligations.BootSequenceRunsTheImage := by
  intro image n _
  have hload : Session.reset.acts (loadMoves 0 image)
      = .ok { core := loadImage image State.reset, started := false } := Session.acts_loadMoves 0 image rfl
  refine ⟨hload, fun hr => ?_⟩
  have hw : ({ core := loadImage image State.reset, started := false } : Session).window = .beforeRun :=
    Session.window_beforeRun.2 ⟨State.storeBytes_running ⟨rfl, rfl⟩ 0 image, rfl⟩
  rw [Session.acts_append, hload]
  exact (Session.acts_cons (Session.act_run_beforeRun hw) _).trans (Session.acts_steps n rfl hr)

/-- Settles O52: each move in the window that the core's status and `started` say (R206). -/
theorem movesKeepToTheirWindows : Obligations.MovesKeepToTheirWindows := by
  refine fun p => ⟨rfl, fun hr hst => ?_, fun hr hst => ?_, fun hstop => ?_⟩
  · have hw : p.window = .beforeRun := Session.window_beforeRun.2 ⟨hr, hst⟩
    refine ⟨Session.act_load hw, Session.act_run_beforeRun hw, fun q => ⟨fun h => ?_, fun h => ?_⟩⟩
    · exact nomatch (Session.act_step_beforeRun hw).symm.trans h
    · exact nomatch (Session.act_read_beforeRun hw).symm.trans h
  · have hw : p.window = .duringRun := Session.window_duringRun.2 ⟨hr, hst⟩
    obtain ⟨t, ht⟩ := exists_step_of_running hr
    refine ⟨⟨t, ht, Session.act_step hw ht⟩, fun m q hreset hstep h => ?_⟩
    exact nomatch (Session.act_duringRun hw hreset hstep).symm.trans h
  · have hw : p.window = .afterStop := Session.window_afterStop.2 hstop
    refine ⟨hostRead_afterStop hw, Session.act_read_afterStop hw, Session.act_run_afterStop hw,
      fun q => ⟨fun h => ?_, fun addr v h => ?_⟩⟩
    · exact nomatch (Session.act_step_afterStop hw).symm.trans h
    · exact nomatch (Session.act_load_afterStop hw addr v).symm.trans h

end Sys2Proof.Machine
end

section
/-! SUPPORT. The results of SUB, SHL, SHR, DIV, MOD and NOT on numbers (41_alu.md R124), and DIV and MOD by a
divisor that is zero and by one that is not (R183). -/

namespace Sys2Proof.Machine

theorem aluSub_toNat_int (u v : Byte) :
    (aluSub u v).toNat = (((u.toNat : Int) - (v.toNat : Int)) % 256).toNat :=
  BitVec.toNat_ofInt ..

theorem aluShl_toNat (u v : Byte) : (aluShl u v).toNat = (u.toNat * 2 ^ v.toNat) % 256 :=
  BitVec.toNat_ofNat ..

/-- A byte divided by a number, or its remainder, is a byte: narrowing changes nothing. -/
theorem toNat_ofNat_of_le_byte {n : Nat} {u : Byte} (h : n ≤ u.toNat) : (BitVec.ofNat 8 n).toNat = n :=
  toNat_ofNat_of_le (h.trans (Nat.le_of_lt_succ u.isLt))

theorem aluShr_toNat (u v : Byte) : (aluShr u v).toNat = u.toNat / 2 ^ v.toNat :=
  toNat_ofNat_of_le_byte (Nat.div_le_self ..)

theorem aluDiv_toNat (u v : Byte) : (aluDiv u v).toNat = u.toNat / v.toNat :=
  toNat_ofNat_of_le_byte (Nat.div_le_self ..)

theorem aluMod_toNat (u v : Byte) : (aluMod u v).toNat = u.toNat % v.toNat :=
  toNat_ofNat_of_le_byte (Nat.mod_le ..)

theorem aluNot_toNat (u : Byte) : (aluNot u).toNat = 255 - u.toNat :=
  toNat_ofNat_of_le (Nat.sub_le ..)

theorem aluNot_aluNot (u : Byte) : aluNot (aluNot u) = u := by
  rw [aluNot_eq, aluNot_eq, BitVec.not_not]

variable {s : State}

theorem exec_not_reg (a : RegIdx) (s : State) :
    exec (.not (regByte a)) s = .next ((s.setReg a (aluNot (s.reg a))).advance 2) :=
  aluUnary_reg s aluNot a

theorem aluDivide_zero (f : Byte → Byte → Byte) (a : RegIdx) {b : RegIdx} (h : s.reg b = 0) :
    aluDivide f (regByte a) (regByte b) s = .next (s.latch (.divisionByZero s.pc)) := by
  rw [aluDivide_regs, if_pos h]

theorem aluDivide_nonzero (f : Byte → Byte → Byte) (a : RegIdx) {b : RegIdx} (h : s.reg b ≠ 0) :
    aluDivide f (regByte a) (regByte b) s
      = .next ((s.setReg a (f (s.reg a) (s.reg b))).advance 3) := by
  rw [aluDivide_regs, if_neg h]

end Sys2Proof.Machine
end

section
namespace Sys2Proof.Machine

/-- Settles O5: each of the three is `aluBinary` of its result function (R111, R121, R122). -/
theorem subShlShrResults : Obligations.SubShlShrResults :=
  ⟨binaryResult_of_aluBinary (fun _ _ _ => rfl) aluSub_toNat_int,
    binaryResult_of_aluBinary (fun _ _ _ => rfl) aluShl_toNat,
    binaryResult_of_aluBinary (fun _ _ _ => rfl) aluShr_toNat⟩

/-- Settles O6: `aluDivide` of the quotient and of the remainder (R113, R114), and Euclid's law for the two. -/
theorem divModResults : Obligations.DivModResults := by
  intro a b s h0
  have hpos : 0 < (s.reg b).toNat := Nat.pos_of_ne_zero fun hz => h0 (BitVec.eq_of_toNat_eq hz)
  have hq (v : Byte) : ((s.setReg a v).advance 3).reg a = v := s.reg_setReg_same a v
  refine ⟨_, _, aluDivide_nonzero aluDiv a h0, aluDivide_nonzero aluMod a h0, ?_, ?_, ?_, ?_,
    State.advance_pc_add .., State.advance_pc_add .., quiet_setReg_advance .., quiet_setReg_advance ..⟩ <;>
    simp only [hq, aluDiv_toNat, aluMod_toNat]
  · exact (Nat.div_add_mod ..).symm
  · exact Nat.mod_lt _ hpos

/-- Settles O7: the test of the divisor stands before the write (R183). -/
theorem divModByZeroRaises : Obligations.DivModByZeroRaises :=
  fun a _ _ h0 => ⟨aluDivide_zero aluDiv a h0, aluDivide_zero aluMod a h0⟩

/-- Settles O9: `aluUnary` of the complement (R120), which is its own inverse. -/
theorem notComplementsInPlace : Obligations.NotComplementsInPlace := by
  refine ⟨unaryResult_of_aluUnary (fun _ _ => rfl) aluNot_toNat, fun a s t u ht hu => ?_⟩
  obtain rfl := Host.Outcome.next.inj ((exec_not_reg a s).symm.trans ht)
  obtain rfl := Host.Outcome.next.inj ((exec_not_reg a _).symm.trans hu)
  refine State.regs_ext fun q => ?_
  by_cases hq : q = a <;> simp [State.reg_setReg, hq, aluNot_aluNot]

end Sys2Proof.Machine
end

section
/-! SUPPORT. CMP and the jumps on registers (42_compare_branch.md R130 to R140): the flags CMP leaves, and where
a jump on a condition of the flags goes. -/

namespace Sys2Proof.Machine

open Sys2Proof.Claims

variable {s t : State}

theorem exec_cmp_reg (a b : RegIdx) (s : State) :
    exec (.cmp (regByte a) (regByte b)) s
      = .next ((s.setFl (compareFl (s.reg a) (s.reg b))).advance 3) :=
  withRegs_regByte a b s _

theorem compareFl_eq {u v : Byte} (h : u.toNat = v.toNat) : compareFl u v = 0x01 := by
  obtain ⟨-, hfl⟩ | ⟨hgt, -⟩ | ⟨hlt, -⟩ := compareFl_cases u v
  · exact hfl
  · omega
  · omega

theorem compareFl_gt {u v : Byte} (h : u.toNat > v.toNat) : compareFl u v = 0x02 := by
  obtain ⟨heq, -⟩ | ⟨-, hfl⟩ | ⟨hlt, -⟩ := compareFl_cases u v
  · omega
  · exact hfl
  · omega

theorem compareFl_lt {u v : Byte} (h : u.toNat < v.toNat) : compareFl u v = 0x04 := by
  obtain ⟨heq, -⟩ | ⟨hgt, -⟩ | ⟨-, hfl⟩ := compareFl_cases u v
  · omega
  · omega
  · exact hfl

/-! ## An instruction that is the jump on `cond` of the flags register -/

/-- Where a jump goes whose condition is `c`: to the register (R139) or past itself (R138). -/
def Goes (mk : Byte → Instr) (a : RegIdx) (s : State) : Bool → Prop
  | true => Taken mk a s
  | false => NotTaken mk a s

variable {mk : Byte → Instr} {cond : Byte → Bool}

theorem goes_of_jumpIf (hexec : ∀ a s, exec (mk a) s = jumpIf (cond s.fl) a s) (a : RegIdx) (s : State) :
    Goes mk a s (cond s.fl) := by
  have h := (hexec (regByte a) s).trans (jumpIf_reg s (cond s.fl) a)
  cases hc : cond s.fl with
  | true => exact h.trans (congrArg Host.Outcome.next (if_pos hc))
  | false =>
    have hnot : ¬ cond s.fl = true := fun hyes => Bool.false_ne_true (hc.symm.trans hyes)
    exact h.trans (congrArg Host.Outcome.next ((if_neg hnot).trans (s.advance_eq_with_pc 2)))

theorem jumpResult_of_jumpIf {P : Byte → Prop} (hexec : ∀ a s, exec (mk a) s = jumpIf (cond s.fl) a s)
    (hP : ∀ fl, cond fl = true ↔ P fl) : JumpResult mk P := by
  intro a s
  have hgoes := goes_of_jumpIf hexec a s
  by_cases hyes : P s.fl
  · rw [(hP s.fl).2 hyes] at hgoes
    exact ⟨_, hgoes, fun _ => zext9_toNat (s.reg a), fun hno => absurd hyes hno, quiet_setPc _ s⟩
  · rw [Bool.eq_false_iff.2 (mt (hP s.fl).1 hyes)] at hgoes
    exact ⟨_, hgoes, fun h => absurd h hyes, fun _ => rfl, quiet_setPc _ s⟩

/-- The six conditional jumps, from a state whose flags register holds `fl`. -/
theorem condJumps_go (a : RegIdx) {fl : Byte} (hfl : s.fl = fl) :
    Goes .jeq a s (condEq fl) ∧ Goes .jne a s (condNe fl) ∧ Goes .jgt a s (condGt fl) ∧
      Goes .jlt a s (condLt fl) ∧ Goes .jle a s (condLe fl) ∧ Goes .jge a s (condGe fl) := by
  subst hfl
  exact ⟨goes_of_jumpIf (fun _ _ => rfl) a s, goes_of_jumpIf (fun _ _ => rfl) a s,
    goes_of_jumpIf (fun _ _ => rfl) a s, goes_of_jumpIf (fun _ _ => rfl) a s,
    goes_of_jumpIf (fun _ _ => rfl) a s, goes_of_jumpIf (fun _ _ => rfl) a s⟩

end Sys2Proof.Machine
end

section
namespace Sys2Proof.Machine

/-- Settles O10: CMP writes the flags register and advances (R130). -/
theorem cmpWritesOneFlag : Obligations.CmpWritesOneFlag :=
  fun a b s => ⟨_, exec_cmp_reg a b s, compareFl_eq, compareFl_gt, compareFl_lt,
    State.advance_pc_add .., rfl, fun _ _ => rfl, fun _ _ => rfl, rfl, rfl⟩

/-- Settles O12: each is the jump on its condition (R132 to R137). -/
theorem conditionalJumpsTestTheirFlags : Obligations.ConditionalJumpsTestTheirFlags :=
  ⟨jumpResult_of_jumpIf (cond := condEq) (fun _ _ => rfl) (fun _ => Iff.rfl),
    jumpResult_of_jumpIf (cond := condNe) (fun _ _ => rfl) (fun _ => Bool.not_eq_true' _ ▸ Iff.rfl),
    jumpResult_of_jumpIf (cond := condGt) (fun _ _ => rfl) (fun _ => Iff.rfl),
    jumpResult_of_jumpIf (cond := condLt) (fun _ _ => rfl) (fun _ => Iff.rfl),
    jumpResult_of_jumpIf (cond := condLe) (fun _ _ => rfl) (fun _ => Bool.or_eq_true_iff),
    jumpResult_of_jumpIf (cond := condGe) (fun _ _ => rfl) (fun _ => Bool.or_eq_true_iff)⟩

/-- Settles O13: the flags a CMP leaves, by how the registers compare, and each jump's condition of them
(R140). -/
theorem compareThenJump : Obligations.CompareThenJump := by
  intro a b c s t h
  have hfl : t.fl = compareFl (s.reg a) (s.reg b) := by
    rw [← Host.Outcome.next.inj ((exec_cmp_reg a b s).symm.trans h)]
    rfl
  exact ⟨exec_jmp_reg c t, fun heq => condJumps_go c (hfl.trans (compareFl_eq heq)),
    fun hgt => condJumps_go c (hfl.trans (compareFl_gt hgt)),
    fun hlt => condJumps_go c (hfl.trans (compareFl_lt hlt))⟩

end Sys2Proof.Machine
end

section
/-! SUPPORT. The stack (43_stack_call.md): what a push and a pop leave in the registers and in memory, and the
next states of POP and CALL. -/

namespace Sys2Proof.Machine

variable (s : State)

/-! ## The meanings -/

theorem exec_pop_reg (a : RegIdx) :
    exec (.pop (regByte a)) s = .next ((s.setReg a (s.load s.sp)).spInc.advance 2) :=
  withReg_regByte a s _

theorem exec_call_reg (a : RegIdx) :
    exec (.call (regByte a)) s
      = if s.pc.toNat + 2 > 255 then .next (s.latch (.addressOutOfRange (s.pc.toNat + 2) s.pc))
        else .next ((s.spDec.store s.spDec.sp (BitVec.ofNat 8 (s.pc.toNat + 2))).setPc
          (zext9 (s.spDec.reg a))) :=
  withReg_regByte a s _

variable {s} in
theorem exec_call_high (h : s.pc.toNat + 2 > 255) (a : RegIdx) :
    exec (.call (regByte a)) s = .next (s.latch (.addressOutOfRange (s.pc.toNat + 2) s.pc)) := by
  rw [exec_call_reg, if_pos h]

variable {s} in
/-- The register jumped to is read after the push (R8, R147). -/
theorem exec_call_low (h : s.pc.toNat + 2 ≤ 255) (a : RegIdx) :
    exec (.call (regByte a)) s
      = .next ((s.spDec.store s.spDec.sp (BitVec.ofNat 8 (s.pc.toNat + 2))).setPc
          (zext9 (s.spDec.reg a))) := by
  rw [exec_call_reg, if_neg (Nat.not_lt.2 h)]

/-! ## A push: the stack pointer one down, a byte stored where it then points -/

theorem State.spDec_sp_toNat : s.spDec.sp.toNat = (s.sp.toNat + 255) % 256 := by
  rw [State.spDec_sp, BitVec.toNat_sub, Nat.add_comm]
  rfl

/-- The frame of a push: R7 and the cell below the stack alone change. -/
theorem quiet_push (v : Byte) : Quiet [7] [s.spDec.sp] s (s.spDec.store s.spDec.sp v) := by
  refine ⟨⟨fun r hr => ?_, fun c hc => ?_, rfl, rfl⟩, rfl, rfl⟩
  · exact s.reg_spDec_other (List.ne_of_not_mem_cons hr)
  · exact (State.load_store ..).trans (if_neg (List.ne_of_not_mem_cons hc))

theorem State.spDec_sp_of_zero (h : s.sp = 0) : s.spDec.sp = 255 := by
  rw [State.spDec_sp, h]
  rfl

theorem State.load_push_of_zero (h : s.sp = 0) (v : Byte) :
    (s.spDec.store s.spDec.sp v).load 255 = v := by
  rw [s.spDec_sp_of_zero h]
  exact State.load_store_same ..

/-! ## A pop: a register written, then the stack pointer one up -/

theorem State.sp_setReg_other {a : RegIdx} (ha : a ≠ 7) (v : Byte) : (s.setReg a v).sp = s.sp :=
  s.reg_setReg_other v ha.symm

/-- The frame of a pop: the register and R7 alone change. -/
theorem quiet_pop (a : RegIdx) (v : Byte) : Quiet [a, 7] [] s (s.setReg a v).spInc := by
  refine ⟨⟨fun r hr => ?_, fun c _ => rfl, rfl, rfl⟩, rfl, rfl⟩
  have hra : r ≠ a := List.ne_of_not_mem_cons hr
  have hr7 : r ≠ Config.spIndex := List.ne_of_not_mem_cons (List.not_mem_of_not_mem_cons hr)
  rw [State.reg_spInc, if_neg hr7, s.reg_setReg_other v hra]

/-- POP of a register that is not R7 (R146). -/
theorem pop_reg_and_sp {a : RegIdx} (ha : a ≠ 7) (v : Byte) :
    (s.setReg a v).spInc.reg a = v ∧ (s.setReg a v).spInc.sp = s.sp + 1 := by
  have hne : a ≠ Config.spIndex := ha
  rw [State.reg_spInc, if_neg hne, State.reg_setReg_same, State.spInc_sp, s.sp_setReg_other ha]
  exact ⟨rfl, rfl⟩

theorem State.spInc_sp_of_255 (h : s.sp = 255) : s.spInc.sp = 0 := by
  rw [State.spInc_sp, h]
  rfl

/-! ## What they latch -/

/-- An instruction with one register operand, whose handler latches nothing, latches InvalidRegister for the
operand or nothing. -/
theorem withReg_fault {s t : State} {a : Byte} {k : RegIdx → Result}
    (hk : ∀ r, ∃ u, k r = .next u ∧ u.fault = s.fault) (h : withReg a s k = .next t) :
    t.fault = s.fault ∨ t.fault = some (.invalidRegister a s.pc) := by
  obtain ⟨r, -, hr⟩ | ⟨-, hbad⟩ := withReg_cases a s k
  · obtain ⟨u, hu, hf⟩ := hk r
    obtain rfl := Host.Outcome.next.inj (hu.symm.trans (hr.symm.trans h))
    exact .inl hf
  · rw [← Host.Outcome.next.inj (hbad.symm.trans h)]
    exact .inr rfl

/-- No stack address is a condition: what is left for PUSH, POP and RET is the operand byte (R152). -/
theorem stack_exec_fault {a : Byte} {i : Instr} {s t : State} (hi : i = .push a ∨ i = .pop a ∨ i = .ret)
    (h : exec i s = .next t) : t.fault = s.fault ∨ t.fault = some (.invalidRegister a s.pc) := by
  obtain rfl | rfl | rfl := hi
  · refine withReg_fault (fun r => ?_) h
    exact ⟨_, rfl, rfl⟩
  · refine withReg_fault (fun r => ?_) h
    exact ⟨_, rfl, rfl⟩
  · exact .inl (congrArg State.fault (Host.Outcome.next.inj h)).symm

/-! ## A step of the stack pointer down and the step up that follows it -/

theorem sp_restored {s t u : State} (hdown : t.sp.toNat = (s.sp.toNat + 255) % 256)
    (hup : u.sp.toNat = (t.sp.toNat + 1) % 256) : u.sp = s.sp := by
  have := s.sp.isLt
  exact BitVec.eq_of_toNat_eq (by omega)

section
variable {s t u : State} {rs rs' : List RegIdx} {cs cs' : List Byte}

theorem Quiet.reg_eq (h : Quiet rs cs s t) {r : RegIdx} (hr : r ∉ rs) : t.reg r = s.reg r :=
  h.1.1 r hr

theorem Quiet.load_eq (h : Quiet rs cs s t) {c : Byte} (hc : c ∉ cs) : t.load c = s.load c :=
  h.1.2.1 c hc

theorem Quiet.running (h : Quiet rs cs s t) (hr : s.Running) : t.Running := by
  obtain ⟨⟨-, -, hhalt, hfault⟩, -, -⟩ := h
  exact ⟨hhalt.trans hr.1, hfault.trans hr.2⟩

theorem Quiet.trans (h : Quiet rs cs s t) (h' : Quiet rs' cs' t u) :
    Quiet (rs ++ rs') (cs ++ cs') s u := by
  obtain ⟨⟨hreg, hload, hhalt, hfault⟩, hfl, hout⟩ := h
  obtain ⟨⟨hreg', hload', hhalt', hfault'⟩, hfl', hout'⟩ := h'
  refine ⟨⟨fun r hr => ?_, fun c hc => ?_, hhalt'.trans hhalt, hfault'.trans hfault⟩,
    hfl'.trans hfl, hout'.trans hout⟩
  · exact (hreg' r (mt (List.mem_append_right rs) hr)).trans (hreg r (mt (List.mem_append_left rs') hr))
  · exact (hload' c (mt (List.mem_append_right cs) hc)).trans (hload c (mt (List.mem_append_left cs') hc))

/-- A stack pointer that is as before need not be named among the registers that may have changed. -/
theorem Quiet.of_sp_eq (h : Quiet rs cs s t) (hsp : t.sp = s.sp) (hrs : ∀ r ∈ rs, r = 7 ∨ r ∈ rs') :
    Quiet rs' cs s t := by
  obtain ⟨⟨hreg, hrest⟩, hquiet⟩ := h
  refine ⟨⟨fun r hr => ?_, hrest⟩, hquiet⟩
  by_cases hmem : r ∈ rs
  · obtain rfl := (hrs r hmem).resolve_right hr
    exact hsp
  · exact hreg r hmem

end

theorem bytesAt_of_opcodeAt {s : State} {op : Byte} (h : OpcodeAt s op) :
    BytesAt s s.pc.toNat [op] := by
  refine ⟨Nat.succ_le_succ h.1, fun k hk => ?_⟩
  obtain rfl : k = 0 := Nat.lt_one_iff.1 hk
  exact h.2

end Sys2Proof.Machine
end

section
namespace Sys2Proof.Machine

/-- Settles O14: the store is the last write, and R7's step the only other (R145). -/
theorem pushStoresBelowTop : Obligations.PushStoresBelowTop := by
  refine fun a s => ⟨_, exec_push_reg s a, s.spDec_sp_toNat, fun ha => ?_, ?_, State.advance_pc_add ..,
    quiet_push s _, rfl⟩
  · exact (State.load_store_same ..).trans (s.reg_spDec_other ha)
  · rintro rfl
    exact State.load_store_same ..

/-- Settles O15: with R7 as the operand its step is taken of the byte just loaded (R146). -/
theorem popLoadsTop : Obligations.PopLoadsTop := by
  refine fun a s => ⟨_, exec_pop_reg s a, fun ha => ?_, ?_, State.advance_pc_add .., quiet_pop s a _⟩
  · obtain ⟨hreg, hsp⟩ := pop_reg_and_sp s ha (s.load s.sp)
    exact ⟨hreg, (congrArg BitVec.toNat hsp).trans (BitVec.toNat_add ..)⟩
  · rintro rfl
    have htop : (s.setReg 7 (s.load s.sp)).sp = s.load s.sp := s.reg_setReg_same 7 _
    exact (State.spInc_sp_toNat _).trans (by rw [htop])

/-- Settles O17: the return address fits one byte (R147). -/
theorem callPushesReturnAddress : Obligations.CallPushesReturnAddress := by
  refine fun a s hpc => ⟨_, exec_call_low hpc a, rfl, s.spDec_sp_toNat, ?_, fun ha => ?_, ?_, quiet_push s _⟩
  · exact (congrArg BitVec.toNat (State.load_store_same ..)).trans (toNat_ofNat_of_le hpc)
  · exact (zext9_toNat _).trans (congrArg BitVec.toNat (s.reg_spDec_other ha))
  · rintro rfl
    exact zext9_toNat _

/-- Settles O16: the four instructions' results at the ends of the stack, and that their handlers latch nothing
(R152). -/
theorem stackPointerWrapsAndNeverRaises : Obligations.StackPointerWrapsAndNeverRaises := by
  refine ⟨fun a s => ?_, fun a s ha => ?_, fun s => ?_, fun a s hpc => ?_,
    fun _ _ _ _ hi h => stack_exec_fault hi h⟩
  · refine ⟨_, exec_push_reg s a, rfl, s.spDec_sp_toNat, fun h0 => ⟨s.spDec_sp_of_zero h0, ?_⟩⟩
    rw [State.load_advance, s.load_push_of_zero h0, State.reg_spDec, h0]
    rfl
  · obtain ⟨hreg, hsp⟩ := pop_reg_and_sp s ha (s.load s.sp)
    refine ⟨_, exec_pop_reg s a, rfl, (congrArg BitVec.toNat hsp).trans (BitVec.toNat_add ..),
      fun h255 => ⟨?_, hreg.trans (congrArg s.load h255)⟩⟩
    exact State.spInc_sp_of_255 _ ((s.sp_setReg_other ha _).trans h255)
  · refine ⟨_, exec_ret s, rfl, State.spInc_sp_toNat _, fun h255 => ⟨State.spInc_sp_of_255 _ h255, ?_⟩⟩
    rw [State.spInc_pc, State.setPc_pc, zext9_toNat, h255]
  · refine ⟨_, exec_call_low hpc a, rfl, s.spDec_sp_toNat, fun h0 => ⟨s.spDec_sp_of_zero h0, ?_⟩⟩
    rw [State.load_setPc, s.load_push_of_zero h0]
    exact toNat_ofNat_of_le hpc

/-- Settles O20: the pop reads the cell just pushed and its step of R7 undoes the push's (R149 (a)). -/
theorem pushPopCopies : Obligations.PushPopCopies := by
  intro a b s t u ha hb ht hu
  obtain ⟨_, hpush, hdown, htop, -, hpc, hquiet, hcell⟩ := pushStoresBelowTop a s
  obtain rfl := Host.Outcome.next.inj (ht.symm.trans hpush)
  obtain ⟨_, hpop, hresult, -, hpc', hquiet'⟩ := popLoadsTop b t
  obtain rfl := Host.Outcome.next.inj (hu.symm.trans hpop)
  obtain ⟨hreg, hup⟩ := hresult hb
  have hsp : u.sp = s.sp := sp_restored hdown hup
  have hboth : Quiet [b] [t.sp] s u :=
    ((hcell ▸ hquiet).trans hquiet').of_sp_eq hsp (by simp [or_comm])
  refine ⟨hreg.trans (htop ha), hsp, (hquiet'.load_eq (List.not_mem_nil)).trans (htop ha), ?_, hboth⟩
  rw [hpc', hpc, BitVec.add_assoc]
  rfl

/-- Settles O18: the bound is tested before anything is written (R147), and at 254 the address is 256. -/
theorem callAtTopRaises : Obligations.CallAtTopRaises := by
  refine fun a s hhi => ⟨exec_call_high hhi a, fun hpc hr hb => ?_⟩
  have hstep : step s = exec (.call (regByte a)) s := step_of_bytesAt hr (by rw [hpc]; exact hb)
  rw [hstep, exec_call_high hhi, State.latch, hpc]
  rfl

/-- Settles O21: RET pops the byte CALL pushed (R149 (b)). -/
theorem callRetResumesAfterCall : Obligations.CallRetResumesAfterCall := by
  intro a s t hr hpc hb hs hret
  obtain ⟨_, hcall, hcell, hdown, htop, -, -, hquiet⟩ := callPushesReturnAddress a s (by omega)
  have hstep : step s = exec (.call (regByte a)) s := step_of_bytesAt hr hb
  obtain rfl := Host.Outcome.next.inj (hs.symm.trans (hstep.trans hcall))
  obtain ⟨u, hexec, hpc', hup, hquiet'⟩ := ret_pops_top t
  have hrt : t.Running := hquiet.running hr
  have hsp : u.sp = s.sp := sp_restored hdown hup
  have hboth : Quiet [] [t.sp] s u := ((hcell ▸ hquiet).trans hquiet').of_sp_eq hsp (by simp)
  refine ⟨u, (step_of_bytesAt (i := .ret) hrt (bytesAt_of_opcodeAt hret)).trans hexec, hpc'.trans htop,
    State.regs_ext fun q => hboth.reg_eq List.not_mem_nil, ?_, hboth⟩
  rw [hquiet'.load_eq List.not_mem_nil, htop]

end Sys2Proof.Machine
end

section
/-! SUPPORT. LD and ST on registers (44_misc.md R161, R162). -/

namespace Sys2Proof.Machine

theorem exec_ld_reg (a b : RegIdx) (s : State) :
    exec (.ld (regByte a) (regByte b)) s = .next ((s.setReg a (s.load (s.reg b))).advance 3) :=
  withRegs_regByte a b s _

theorem exec_st_reg (a b : RegIdx) (s : State) :
    exec (.st (regByte a) (regByte b)) s = .next ((s.store (s.reg a) (s.reg b)).advance 3) :=
  withRegs_regByte a b s _

/-- The frame of ST: the cell stored to is the only one that changes. -/
theorem quiet_store_advance (s : State) (c v : Byte) (n : Nat) :
    Quiet [] [c] s ((s.store c v).advance n) :=
  ⟨⟨fun _ _ => rfl,
    fun _ hd => (s.load_store c _ v).trans (if_neg (List.ne_of_not_mem_cons hd)), rfl, rfl⟩, rfl, rfl⟩

/-- A store to the cell the advance leads to (R60). -/
theorem opcodeAt_store_advance {s : State} {c : Byte} {n : Nat} (h : c.toNat = s.pc.toNat + n) (v : Byte) :
    OpcodeAt ((s.store c v).advance n) v := by
  have hc : c.toNat ≤ 255 := Nat.le_of_lt_succ c.isLt
  have hpc : ((s.store c v).advance n).pc.toNat = c.toNat :=
    (State.advance_pc_toNat (s.store c v) (show s.pc.toNat + n < 512 by omega)).trans h.symm
  refine ⟨hpc.trans_le hc, ?_⟩
  rw [hpc]
  exact Memory.read_write_same ..

/-! ## The console log as bytes (70_reset_and_hazards.md R207) -/

/-- A decimal digit's character has a code point below 128, so one byte carries it. -/
theorem toNat_ofNat_digit {d : Nat} (h : d < 10) : (BitVec.ofNat 8 (48 + d)).toNat = 48 + d :=
  toNat_ofNat_of_le (by omega)

end Sys2Proof.Machine
end

section
namespace Sys2Proof.Machine

/-- Settles O24: LD writes a register (R161), ST one cell (R162). -/
theorem loadAndStoreThroughRegister : Obligations.LoadAndStoreThroughRegister :=
  ⟨fun a b s => ⟨_, exec_ld_reg a b s, s.reg_setReg_same a _, State.advance_pc_add ..,
      quiet_setReg_advance ..⟩,
    fun a b s => ⟨_, exec_st_reg a b s, s.load_store_same _ _, State.advance_pc_add ..,
      quiet_store_advance ..⟩⟩

/-- Settles O41: the advance leads to the cell just written, so its byte is the next opcode (R60). -/
theorem storeIsFetchedByNextStep : Obligations.StoreIsFetchedByNextStep := by
  intro a b s hr hb haddr
  have hstep := (step_of_bytesAt (i := .st (regByte a) (regByte b)) hr hb).trans (exec_st_reg a b s)
  have hrt : ((s.store (s.reg a) (s.reg b)).advance 3).Running := hr
  have hat := opcodeAt_store_advance haddr (s.reg b)
  refine ⟨_, hstep, hrt, hat, fun hnot => step_of_not_functioning hrt hat hnot, fun hhlt => ?_⟩
  have hat' : OpcodeAt ((s.store (s.reg a) (s.reg b)).advance 3) 0x01 := ⟨hat.1, hat.2.trans hhlt⟩
  exact ⟨_, step_of_bytesAt (i := .hlt) hrt (bytesAt_of_opcodeAt hat'), rfl⟩

/-- Settles O26: a digit's character is one byte below 128, and so is the newline (R207). -/
theorem asciiRecordsAreTheirBytes : Obligations.AsciiRecordsAreTheirBytes := by
  refine ⟨fun v => ?_, fun v hv => if_pos hv, fun v hv => if_neg (Nat.not_lt.2 hv)⟩
  have hdigits := decimalDigits_lt_ten (v.isLt.trans (by decide : 2 ^ 8 < 1000))
  refine ⟨?_, fun c hc => ?_⟩
  · simp only [recordBytes, renderRecord, List.map_append, List.map_map]
    congr 1
    exact List.map_congr_left fun d hd => congrArg Char.ofNat (toNat_ofNat_digit (hdigits d hd))
  · obtain hc | hc := List.mem_append.1 hc
    · obtain ⟨d, hd, rfl⟩ := List.mem_map.1 hc
      have := hdigits d hd
      rw [toNat_ofNat_digit this]
      omega
    · rw [List.mem_singleton.1 hc]
      decide

/-- Settles O1: the listed values (R36). -/
theorem resetLeavesTheListedValues : Obligations.ResetLeavesTheListedValues := by
  refine ⟨by decide, fun _ => rfl, rfl, rfl, rfl, rfl, rfl⟩

end Sys2Proof.Machine
end
